-- ==== Sys2Proof/Word.lean ====
section
/-!
DEFINITION. The byte and the 4-byte word of the engine (spec 20_memory.md R55, R57; 00_scope.md R10).
A byte is 8 bits, bit 0 the least significant. A word is a sequence of four bytes `(b0, b1, b2, b3)`,
`b0` the first, "and never an integer", so no integer byte order enters any result.
-/

namespace Sys2Proof

/-- One byte (R10): 8 bits, also one element of GF(2^8) (R110). -/
abbrev Byte := BitVec 8

/-- A word (R55): four bytes, `b0` first. It is a word of the key schedule, or one column of the
working state with `bj` in row `j` (R180). -/
structure Word where
  b0 : Byte
  b1 : Byte
  b2 : Byte
  b3 : Byte
  deriving DecidableEq, Repr

namespace Word

/-- The word of four zero bytes. -/
def zero : Word := ⟨0, 0, 0, 0⟩

/-- Word `xor`: byte-wise on the four bytes (R156, "word `xor` being byte-wise on the four bytes"). -/
def xor (v w : Word) : Word := ⟨v.b0 ^^^ w.b0, v.b1 ^^^ w.b1, v.b2 ^^^ w.b2, v.b3 ^^^ w.b3⟩

/-- One function applied to each of the four bytes. -/
def map (f : Byte → Byte) (w : Word) : Word := ⟨f w.b0, f w.b1, f w.b2, f w.b3⟩

/-- The four bytes in order. -/
def toBytes (w : Word) : List Byte := [w.b0, w.b1, w.b2, w.b3]

end Word

end Sys2Proof
end

