-- ==== Sys2Proof/Syntax.lean ====
section
/-!
DEFINITION. The thirteen commands of spec 30_encoding.md R94, one constructor per row of
opcode_table.json in the table's order.

A constructor carries the operands that stand in `CMD` (R87: only `MAKEKEY` has any). The other
operands of a transaction, `LEN` and `DIN` (R80), are not fields of `CMD`: the port latches them in the
state (`State.cur`) and the meanings read them there.
-/

namespace Sys2Proof

/-- The instruction set: the thirteen command words of R94. -/
inductive Instr where
  /-- `MAKEKEY` (R158). `nullChain` is `Z` (R84); `keyLength` and `blockSize` are the unsigned byte counts
  `KEYLEN_f` and `BLKSIZE_f` (R85). -/
  | makeKey (nullChain : Bool) (keyLength blockSize : Nat)
  /-- `ENCRYPTBLOCK` (R190). -/
  | encryptBlock
  /-- `DECRYPTBLOCK` (R191). -/
  | decryptBlock
  /-- `ENCRYPT.ECB` (R222). -/
  | encryptEcb
  /-- `ENCRYPT.CBC` (R223). -/
  | encryptCbc
  /-- `ENCRYPT.CFB` (R224). -/
  | encryptCfb
  /-- `DECRYPT.ECB` (R225). -/
  | decryptEcb
  /-- `DECRYPT.CBC` (R226). -/
  | decryptCbc
  /-- `DECRYPT.CFB` (R227). -/
  | decryptCfb
  /-- `GETKEYLENGTH` (R260). -/
  | getKeyLength
  /-- `GETBLOCKSIZE` (R261). -/
  | getBlockSize
  /-- `GETROUNDS` (R262). -/
  | getRounds
  /-- `RESETCHAIN` (R228). -/
  | resetChain
  deriving DecidableEq, Repr

end Sys2Proof
end

