-- ==== Sys2Proof/WellFormed.lean ====
section
/-!
DEFINITION. Which instructions a command word can carry (spec 30_encoding.md R85): `KEYLEN_f` and
`BLKSIZE_f` are 8-bit fields, "range 0..255". Every value in that range is a legal word, also one that
`MAKEKEY` then answers with `InvalidKeyLength` or `InvalidBlockSize`.
-/

namespace Sys2Proof

/-- The operands fit their fields (R85). -/
def Instr.wf : Instr → Bool
  | .makeKey _ keyLength blockSize => decide (keyLength < 256) && decide (blockSize < 256)
  | .encryptBlock => true
  | .decryptBlock => true
  | .encryptEcb => true
  | .encryptCbc => true
  | .encryptCfb => true
  | .decryptEcb => true
  | .decryptCbc => true
  | .decryptCfb => true
  | .getKeyLength => true
  | .getBlockSize => true
  | .getRounds => true
  | .resetChain => true

end Sys2Proof
end

