-- ==== Sys2Proof/Decode.lean ====
section
/-!
DEFINITION. Decoding of `CMD` by the algorithm of spec 30_encoding.md R90, total on all 2^32 words; the
encoder, from the field layout of R81 to R85; the opcode map of R94 as data.
-/

namespace Sys2Proof

/-- Why a word is illegal: the alternatives of R88. All of them raise the one error `InvalidCommand`. -/
inductive IllegalCommand where
  /-- Bits 31:24 are not 0, or bit 7 is 1. -/
  | reservedBit
  /-- `Z`, `KEYLEN_f` or `BLKSIZE_f` is not 0 and `OP` is not 1. -/
  | unusedOperand
  /-- `MODE` is not 0 and `OP` is not 4 or 5. -/
  | unusedMode
  /-- `OP` is 4 or 5 and `MODE` is 3. -/
  | reservedMode
  /-- `OP` is 0 or 0xA to 0xF. -/
  | reservedOp
  deriving DecidableEq, Repr

/-- What a command word decodes to. -/
inductive Decoded where
  | legal (i : Instr)
  | illegal (why : IllegalCommand)
  deriving DecidableEq, Repr

/-- The legal instruction, if any. -/
def Decoded.instr? : Decoded → Option Instr
  | .legal i => some i
  | .illegal _ => none

/-- `OP`, bits 3:0 (R81). -/
def opField (cmd : BitVec 32) : BitVec 4 := cmd.extractLsb' 0 4
/-- `MODE`, bits 5:4 (R81, R83). -/
def modeField (cmd : BitVec 32) : BitVec 2 := cmd.extractLsb' 4 2
/-- `Z`, bit 6 (R81, R84). -/
def zField (cmd : BitVec 32) : Bool := cmd.getLsbD 6
/-- The reserved bit 7 (R81). -/
def rsv7Field (cmd : BitVec 32) : Bool := cmd.getLsbD 7
/-- `KEYLEN_f`, bits 15:8 (R81, R85). -/
def keylenField (cmd : BitVec 32) : BitVec 8 := cmd.extractLsb' 8 8
/-- `BLKSIZE_f`, bits 23:16 (R81, R85). -/
def blksizeField (cmd : BitVec 32) : BitVec 8 := cmd.extractLsb' 16 8
/-- The reserved bits 31:24 (R81). -/
def rsv31Field (cmd : BitVec 32) : BitVec 8 := cmd.extractLsb' 24 8

/-- The last lines of R90: the commands that use no field of `CMD` besides `OP`. -/
def decodePlainOp (op : BitVec 4) : Decoded :=
  if op = 2 then .legal .encryptBlock
  else if op = 3 then .legal .decryptBlock
  else if op = 6 then .legal .getKeyLength
  else if op = 7 then .legal .getBlockSize
  else if op = 8 then .legal .getRounds
  else if op = 9 then .legal .resetChain
  else .illegal .reservedOp

/-- `ENCRYPT` by mode (R82, R83, R90). -/
def decodeEncrypt (mode : BitVec 2) : Decoded :=
  if mode = 0 then .legal .encryptEcb
  else if mode = 1 then .legal .encryptCbc
  else if mode = 2 then .legal .encryptCfb
  else .illegal .reservedMode

/-- `DECRYPT` by mode (R82, R83, R90). -/
def decodeDecrypt (mode : BitVec 2) : Decoded :=
  if mode = 0 then .legal .decryptEcb
  else if mode = 1 then .legal .decryptCbc
  else if mode = 2 then .legal .decryptCfb
  else .illegal .reservedMode

/-- The decoding algorithm of R90, line by line. -/
def decode (cmd : BitVec 32) : Decoded :=
  if rsv31Field cmd ≠ 0 ∨ rsv7Field cmd = true then .illegal .reservedBit
  else if opField cmd = 1 then
    if modeField cmd ≠ 0 then .illegal .unusedMode
    else .legal (.makeKey (zField cmd) (keylenField cmd).toNat (blksizeField cmd).toNat)
  else if zField cmd = true ∨ keylenField cmd ≠ 0 ∨ blksizeField cmd ≠ 0 then .illegal .unusedOperand
  else if opField cmd = 4 then decodeEncrypt (modeField cmd)
  else if opField cmd = 5 then decodeDecrypt (modeField cmd)
  else if modeField cmd ≠ 0 then .illegal .unusedMode
  else decodePlainOp (opField cmd)

/-- The command format of R81, most significant field first:
`reserved[31:24] BLKSIZE_f[23:16] KEYLEN_f[15:8] 0[7] Z[6] MODE[5:4] OP[3:0]`. -/
def commandWord (op : BitVec 4) (mode : BitVec 2) (z : Bool) (keylen blksize : BitVec 8) : BitVec 32 :=
  0#8 ++ blksize ++ keylen ++ 0#1 ++ BitVec.ofBool z ++ mode ++ op

/-- The `CMD` word of an instruction (R82 to R85). DESIGN CHOICE (log entry 21): a size above 255, which no field
can hold and which WellFormed refuses, is written modulo 256. -/
def encode : Instr → BitVec 32
  | .makeKey nullChain keyLength blockSize =>
      commandWord 1 0 nullChain (BitVec.ofNat 8 keyLength) (BitVec.ofNat 8 blockSize)
  | .encryptBlock => commandWord 2 0 false 0 0
  | .decryptBlock => commandWord 3 0 false 0 0
  | .encryptEcb => commandWord 4 0 false 0 0
  | .encryptCbc => commandWord 4 1 false 0 0
  | .encryptCfb => commandWord 4 2 false 0 0
  | .decryptEcb => commandWord 5 0 false 0 0
  | .decryptCbc => commandWord 5 1 false 0 0
  | .decryptCfb => commandWord 5 2 false 0 0
  | .getKeyLength => commandWord 6 0 false 0 0
  | .getBlockSize => commandWord 7 0 false 0 0
  | .getRounds => commandWord 8 0 false 0 0
  | .resetChain => commandWord 9 0 false 0 0

/-- One row of the opcode map (R94): a word `w` is of this row when `w &&& mask = pattern`
(`match` in the table). -/
structure OpcodeRow where
  mnemonic : String
  pattern : BitVec 32
  mask : BitVec 32
  deriving DecidableEq, Repr

/-- `(CMD and mask) == match` (R94). -/
def OpcodeRow.selects (row : OpcodeRow) (cmd : BitVec 32) : Bool := cmd &&& row.mask == row.pattern

/-- The thirteen rows of R94, in the table's order. -/
def opcodeRows : List OpcodeRow :=
  [⟨"MAKEKEY", 0x00000001, 0xFF0000BF⟩,
   ⟨"ENCRYPTBLOCK", 0x00000002, 0xFFFFFFFF⟩,
   ⟨"DECRYPTBLOCK", 0x00000003, 0xFFFFFFFF⟩,
   ⟨"ENCRYPT.ECB", 0x00000004, 0xFFFFFFFF⟩,
   ⟨"ENCRYPT.CBC", 0x00000014, 0xFFFFFFFF⟩,
   ⟨"ENCRYPT.CFB", 0x00000024, 0xFFFFFFFF⟩,
   ⟨"DECRYPT.ECB", 0x00000005, 0xFFFFFFFF⟩,
   ⟨"DECRYPT.CBC", 0x00000015, 0xFFFFFFFF⟩,
   ⟨"DECRYPT.CFB", 0x00000025, 0xFFFFFFFF⟩,
   ⟨"GETKEYLENGTH", 0x00000006, 0xFFFFFFFF⟩,
   ⟨"GETBLOCKSIZE", 0x00000007, 0xFFFFFFFF⟩,
   ⟨"GETROUNDS", 0x00000008, 0xFFFFFFFF⟩,
   ⟨"RESETCHAIN", 0x00000009, 0xFFFFFFFF⟩]

/-- The mnemonic of an instruction (R94). -/
def Instr.mnemonic : Instr → String
  | .makeKey _ _ _ => "MAKEKEY"
  | .encryptBlock => "ENCRYPTBLOCK"
  | .decryptBlock => "DECRYPTBLOCK"
  | .encryptEcb => "ENCRYPT.ECB"
  | .encryptCbc => "ENCRYPT.CBC"
  | .encryptCfb => "ENCRYPT.CFB"
  | .decryptEcb => "DECRYPT.ECB"
  | .decryptCbc => "DECRYPT.CBC"
  | .decryptCfb => "DECRYPT.CFB"
  | .getKeyLength => "GETKEYLENGTH"
  | .getBlockSize => "GETBLOCKSIZE"
  | .getRounds => "GETROUNDS"
  | .resetChain => "RESETCHAIN"

/-- The instruction read from a word given as a number whose bit 0 is bit 0 of `CMD` (the numbering of
opcode_table.json). `CMD` is a 32-bit value, not bytes at addresses (R63), so no byte order enters. -/
def decodeTableWord (nbits w : Nat) : Option Instr :=
  (decode (BitVec.ofNat 32 (w % 2 ^ nbits))).instr?

end Sys2Proof
end

