-- ==== Sys2Proof/Config.lean ====
section
/-!
DEFINITION. The implementation parameters of spec 00_scope.md R4 and the constant of 10_state.md R33.
R8: the engine is deterministic and "a model needs no draw, no oracle", so there is no free value here:
no rule of the spec leaves open the value of a response or of a byte that a later command can read.
-/

namespace Sys2Proof.Config

/-- `KEYLEN_SET` (R4): the legal key lengths in bytes. -/
def keylenSet : List Nat := [16, 24, 32]

/-- `BLKSIZE_SET` (R4): the legal block sizes in bytes. -/
def blksizeSet : List Nat := [16, 24, 32]

/-- `DEFAULT_BLOCK_SIZE` (R4): the default of both sizes, used only by the pseudo-forms of R93. -/
def defaultBlockSize : Nat := 16

/-- `MAX_BLOCK_SIZE` (R4): the capacity of `CHAIN` and `CHAIN0` in bytes. -/
def maxBlockSize : Nat := 32

/-- `MAX_KEY_LENGTH` (R4): the capacity of `KEY` in bytes. -/
def maxKeyLength : Nat := 32

/-- `MAX_NW` (R4): the capacity of `W` in words. -/
def maxNw : Nat := 120

/-- `POLY` (R4, R110): the reduction polynomial `x^8 + x^4 + x^3 + x + 1`, nine coefficients. -/
def poly : BitVec 9 := 0x11B

/-- `sm_chain0` (R33): 32 zero bytes, of which a session uses the first `BLKSIZE`. -/
def smChain0 : List Byte := List.replicate maxBlockSize 0

end Sys2Proof.Config
end

