-- ==== Sys2Proof/Machine/State.lean ====
section
/-!
DEFINITION. The state of one engine instance (spec 10_state.md R20) and of its command port
(00_scope.md R5, 30_encoding.md R80), and the state after reset (R36, R311).

The data registers are sized by the session, not by the capacity, as R37 asks ("a model should size these
registers by the session"): `key`, `w`, `chain0` and `chain` are lists of exactly the valid bytes or words, so
the bytes beyond the valid part do not exist. The scratch state `S` is a local value of `cipher` and
`invCipher`, "not a field of the state" (R29).
-/

namespace Sys2Proof.Machine

/-- A command as the host presents it (R80): the command word, the length word, the input bytes. -/
structure Transaction where
  cmd : BitVec 32
  len : BitVec 32
  din : List Byte
  deriving DecidableEq, Repr

/-- What the host can do to the instance: present a command (R7), or reset it (R310, "an optional host
action"). -/
inductive HostAction where
  | command (t : Transaction)
  | reset
  deriving DecidableEq, Repr

/-- A response (R80): `STATUS` (8 bits), `RVAL` (32 bits), `DOUT`. -/
structure Response where
  status : BitVec 8
  rval : BitVec 32
  dout : List Byte
  deriving DecidableEq, Repr

/-- The outcomes of a command that `STATUS` names (R92, R271). -/
inductive Status where
  | ok
  | invalidKeyLength
  | invalidBlockSize
  | invalidInputLength
  | keyNotInitialized
  | invalidCommand
  deriving DecidableEq, Repr

/-- The reasons the machine stops with a fault: none. Every error of the engine is a response after which it
is "ready for the next command immediately" (R280), so it is a next state; "there is no double fault" (R281)
and no error arises inside a command (R270). No constructor, so nothing raises one: safe. -/
inductive Fault
  deriving DecidableEq, Repr

/-- The reasons the model gives a command no meaning. -/
inductive Refusal where
  /-- Raised only by an arm of `exec` for an instruction without a meaning; no arm of this model does. Safe. -/
  | notModelled (mnemonic : String)
  /-- Raised by `withDin` for a command that passes every check of its rule while `len(DIN)` is not what R51
  requires: "the spec gives the command no meaning ... A model should treat such a command as `refuse`" (R68,
  R286; 93_implementation_defined.md U4). Safe: nothing can be proved of what follows. -/
  | malformedTransaction
  deriving DecidableEq, Repr

/-- One engine instance and its command port. -/
structure State where
  /-- `KEY_INIT` (R21), 1 bit: set by the first successful `MAKEKEY`. -/
  keyInit : Bool
  /-- `KEYLEN` (R22), 8 bits: the key length in bytes. -/
  keylen : BitVec 8
  /-- `BLKSIZE` (R23), 8 bits: the block size in bytes. -/
  blksize : BitVec 8
  /-- `ROUNDS` (R24), 8 bits: the round count `Nr`. -/
  rounds : BitVec 8
  /-- `KEY[0 .. KEYLEN-1]` (R25): the key material. -/
  key : List Byte
  /-- `W[0 .. NW-1]` (R26): the expanded key schedule. -/
  w : List Word
  /-- `CHAIN0[0 .. BLKSIZE-1]` (R27): the chain-init of the session. -/
  chain0 : List Byte
  /-- `CHAIN[0 .. BLKSIZE-1]` (R28): the Chain Register. -/
  chain : List Byte
  /-- The port: the transaction being performed, whose `LEN` and `DIN` the meanings read (R50, R80). -/
  cur : Transaction
  /-- The port: what the host will do next, in its order (R65). -/
  inputs : List HostAction
  /-- The port: the responses returned so far, the oldest first (R80, "every command gets exactly one"). -/
  responses : List Response
  deriving DecidableEq, Repr

/-- The state after reset (R36, R311): `KEY_INIT = 0`. R36 gives every other register no value; the data
registers are empty (no valid byte) and the size registers hold the named value 0, which no command can read
(log entries 1 and 2). No command has been presented and no response returned. -/
def State.reset : State where
  keyInit := false
  keylen := 0
  blksize := 0
  rounds := 0
  key := []
  w := []
  chain0 := []
  chain := []
  cur := ⟨0, 0, []⟩
  inputs := []
  responses := []

end Sys2Proof.Machine
end

