-- ==== Sys2Proof/Machine/Flags.lean ====
section
/-!
DEFINITION. The engine's only flag, `KEY_INIT` (spec 10_state.md R21), the numeric `STATUS` codes
(30_encoding.md R92, 60_exceptions.md R271), and the size test of `MAKEKEY` (42_key_schedule.md R159).
The engine has no condition codes (R31).
-/

namespace Sys2Proof.Machine

/-- The code of a status (R92, R271). -/
def Status.code : Status → BitVec 8
  | .ok => 0
  | .invalidKeyLength => 1
  | .invalidBlockSize => 2
  | .invalidInputLength => 3
  | .keyNotInitialized => 4
  | .invalidCommand => 5

/-- `KEY_INIT = 1` (R21): the keyed engine of R283. -/
def State.keyed (s : State) : Bool := s.keyInit

/-- `keyLength` is in the supported set (R159). -/
def keylenSupported (keyLength : Nat) : Bool := Config.keylenSet.contains keyLength

/-- `blockSize` is in the supported set (R159). -/
def blksizeSupported (blockSize : Nat) : Bool := Config.blksizeSet.contains blockSize

end Sys2Proof.Machine
end

