-- ==== Sys2Proof/Machine/Operands.lean ====
section
/-!
DEFINITION. The operand forms: the byte space `DIN` and its layout per command (spec 20_memory.md R50, R51,
R56), and the sizes derived from the session registers (10_state.md R22 to R24).
-/

namespace Sys2Proof.Machine

/-- The host's byte space of one command: `MemRead(addr, n)` is the `n` bytes `DIN[addr .. addr+n-1]` (R50). -/
def memRead (din : List Byte) (addr n : Nat) : List Byte := (din.drop addr).take n

/-- Byte-wise exclusive-or of two sequences of equal length (R10). -/
def bytesXor (a b : List Byte) : List Byte := List.zipWith (· ^^^ ·) a b

/-- `zeros(n)` (R10). -/
def zeros (n : Nat) : List Byte := List.replicate n 0

/-- The block size of the session in bytes, `BLKSIZE` as a number (R23). -/
def State.bs (s : State) : Nat := s.blksize.toNat

/-- `Nb = BLKSIZE / 4` (R23). -/
def State.nb (s : State) : Nat := s.bs / 4

/-- `Nr`, the content of `ROUNDS` as a number (R24). -/
def State.nr (s : State) : Nat := s.rounds.toNat

/-- `n`, the operand `LEN` of the transaction in bytes (R86). -/
def State.n (s : State) : Nat := s.cur.len.toNat

/-- The length `DIN` of `MAKEKEY` must have (R51): the key, and the chain-init unless `Z = 1`. -/
def makeKeyDinLength (nullChain : Bool) (keyLength blockSize : Nat) : Nat :=
  if nullChain then keyLength else keyLength + blockSize

/-- The `key` operand of `MAKEKEY` (R51, R158). -/
def keyOperand (din : List Byte) (keyLength : Nat) : List Byte := memRead din 0 keyLength

/-- The `chainInit` operand of `MAKEKEY` (R51, R84, R158): `sm_chain0[0 .. blockSize-1]` when `Z = 1`, else the
bytes after the key. -/
def chainInitOperand (nullChain : Bool) (din : List Byte) (keyLength blockSize : Nat) : List Byte :=
  if nullChain then Config.smChain0.take blockSize else memRead din keyLength blockSize

/-- The input blocks of a multi-block command (R56): `n / BLKSIZE` of them, block `k` at offset
`k * BLKSIZE`, in ascending order. -/
def State.inputBlocks (s : State) : List (List Byte) :=
  (List.range (s.n / s.bs)).map fun k => memRead s.cur.din (k * s.bs) s.bs

/-- The `len(DIN)` that R51 requires of a command whose `LEN` is `len`. -/
def State.requiredDinLength (s : State) (len : Nat) : Instr → Nat
  | .makeKey nullChain keyLength blockSize => makeKeyDinLength nullChain keyLength blockSize
  | .encryptBlock => s.bs
  | .decryptBlock => s.bs
  | .encryptEcb => len
  | .encryptCbc => len
  | .encryptCfb => len
  | .decryptEcb => len
  | .decryptCbc => len
  | .decryptCfb => len
  | .getKeyLength => 0
  | .getBlockSize => 0
  | .getRounds => 0
  | .resetChain => 0

end Sys2Proof.Machine
end

