-- ==== Sys2Proof/Machine/Ops.lean ====
section
/-!
DEFINITION. The shared operations of every command: returning a response (spec 30_encoding.md R80, R91),
raising an error (60_exceptions.md R279), the checks that precede every effect (R270), accepting a
transaction at the port (20_memory.md R69), and the reset action (70_reset_and_hazards.md R310).

Raising an error is this engine's exception entry: "`STATUS <- code; RVAL <- 0; DOUT <- empty; no state element
changes`" (R279). There is no saved context and no vector (R277), and the return from it is nothing at all:
"Return from an error: none is needed" (R280).
-/

namespace Sys2Proof.Machine

/-- What one command answers. -/
abbrev Result := Host.Outcome State Fault Refusal

/-- The response leaves the port (R80); no register changes. -/
def State.respond (s : State) (r : Response) : State := { s with responses := s.responses ++ [r] }

/-- The response of a successful command (R91, R92). -/
def okResponse (rval : BitVec 32) (dout : List Byte) : Response := ⟨Status.ok.code, rval, dout⟩

/-- The response of an error (R279). -/
def errorResponse (e : Status) : Response := ⟨e.code, 0, []⟩

/-- A command ends with success (R11, `return`). -/
def succeed (rval : BitVec 32) (dout : List Byte) (s : State) : Result :=
  .next (s.respond (okResponse rval dout))

/-- `raise e`, the whole error entry (R11, R279). -/
def raise (e : Status) (s : State) : Result := .next (s.respond (errorResponse e))

/-- `if KEY_INIT == 0: raise KeyNotInitialized` (R275), before anything else. -/
def withKey (s : State) (k : Result) : Result :=
  if s.keyed then k else raise .keyNotInitialized s

/-- `if n mod BLKSIZE != 0: raise InvalidInputLength` (R220 check 2, R274). -/
def withWholeBlocks (s : State) (k : Result) : Result :=
  if s.n % s.bs = 0 then k else raise .invalidInputLength s

/-- A command that has passed its checks needs `len(DIN)` to be what R51 says; otherwise the model has no
step for it (R68, R286, U4). -/
def withDin (s : State) (required : Nat) (k : Result) : Result :=
  if s.cur.din.length = required then k else .refused .malformedTransaction

/-- The port takes the next transaction (R69): its operands are latched, and the host's later actions wait. -/
def State.accept (s : State) (t : Transaction) (rest : List HostAction) : State :=
  { s with cur := t, inputs := rest }

/-- The reset action (R310): a fresh instance, `State.reset`, at the same port. -/
def State.hostReset (s : State) (rest : List HostAction) : State :=
  { State.reset with inputs := rest, responses := s.responses }

/-- The transaction whose `CMD` is `cmd` and whose every other bit is 0: `LEN = 0`, and `DIN` zero bytes, as
many as R51 requires of that command in state `s`. -/
def State.zeroTransaction (s : State) (cmd : BitVec 32) : Transaction where
  cmd := cmd
  len := 0
  din := zeros (((decode cmd).instr?.map (s.requiredDinLength 0)).getD 0)

end Sys2Proof.Machine
end

