-- ==== Sys2Proof/Machine/Accessors.lean ====
section
/-!
DEFINITION. The configuration accessors (spec 45_accessors.md): the only read path to the engine's state.
-/

namespace Sys2Proof.Machine

/-- What the three accessors share (R263): `RVAL <- zext_32(register)`, nothing written. -/
def readRegister (register : BitVec 8) (s : State) : Result :=
  withKey s (withDin s 0 (succeed (register.setWidth 32) [] s))

/-- `GETKEYLENGTH` (R260). -/
def execGetKeyLength (s : State) : Result := readRegister s.keylen s

/-- `GETBLOCKSIZE` (R261). -/
def execGetBlockSize (s : State) : Result := readRegister s.blksize s

/-- `GETROUNDS` (R262). -/
def execGetRounds (s : State) : Result := readRegister s.rounds s

end Sys2Proof.Machine
end

