-- ==== Sys2Proof/Machine/Galois.lean ====
section
/-!
DEFINITION. Arithmetic in GF(2^8) (spec 40_gf_arithmetic.md R110 to R117). All are pure functions of bytes,
with no encoding of their own (R12, R95).
-/

namespace Sys2Proof.Machine

/-- `gf_add` (R111). -/
def gfAdd (a b : Byte) : Byte := a ^^^ b

/-- `xtime` (R112): the 9-bit shift, reduced by `POLY` when bit 7 was set. -/
def xtime (a : Byte) : Byte :=
  let t : BitVec 9 := a.setWidth 9 <<< 1
  (if a.getLsbD 7 then t ^^^ Config.poly else t).setWidth 8

/-- `n` steps of the loop of R113, at bit `i` of `b`: `p` is the sum so far and `a` the doubled operand. -/
def gfMulLoop (b : Byte) : Nat → Nat → Byte → Byte → Byte
  | 0, _, p, _ => p
  | n + 1, i, p, a => gfMulLoop b n (i + 1) (if b.getLsbD i then p ^^^ a else p) (xtime a)

/-- `gf_mul` (R113): shift-and-add over the bits of `b`, least significant first. -/
def gfMul (a b : Byte) : Byte := gfMulLoop b 8 0 0 a

/-- `a^254` (R115, "power"): 254 = 2 + 4 + 8 + 16 + 32 + 64 + 128, so it is the product of seven repeated
squares. -/
def gfPow254 (a : Byte) : Byte :=
  let a2 := gfMul a a
  let a4 := gfMul a2 a2
  let a8 := gfMul a4 a4
  let a16 := gfMul a8 a8
  let a32 := gfMul a16 a16
  let a64 := gfMul a32 a32
  let a128 := gfMul a64 a64
  gfMul a2 (gfMul a4 (gfMul a8 (gfMul a16 (gfMul a32 (gfMul a64 a128)))))

/-- `gf_inv` (R115): "**not defined**" at 0 (93_implementation_defined.md U1, "model it with domain 1..255, or
as an option type"). -/
def gfInv (a : Byte) : Option Byte := if a = 0 then none else some (gfPow254 a)

/-- `gf_inv0` (R116): the total extension, 0 to 0. -/
def gfInv0 (a : Byte) : Byte := (gfInv a).getD 0

/-- The polynomial product of two bytes before reduction, coefficients modulo 2 (R113): bit `i` of `b`
contributes `a * x^i`. Used only to state what `gfMul` computes. -/
def polyProduct (a b : Byte) : BitVec 15 :=
  (List.range 8).foldl (fun p i => if b.getLsbD i then p ^^^ (a.setWidth 15 <<< i) else p) 0

/-- Reduction modulo `POLY` (R113): from degree 14 down to 8, a set coefficient of `x^d` is cancelled by
`POLY * x^(d-8)`. Used only to state what `gfMul` computes. -/
def polyReduce (p : BitVec 15) : Byte :=
  ([14, 13, 12, 11, 10, 9, 8].foldl
    (fun q d => if q.getLsbD d then q ^^^ (Config.poly.setWidth 15 <<< (d - 8)) else q) p).setWidth 8

end Sys2Proof.Machine
end

