-- ==== Sys2Proof/Machine/KeySchedule.lean ====
section
/-!
DEFINITION. The key schedule expander and `MAKEKEY` (spec 42_key_schedule.md R150 to R162).
-/

namespace Sys2Proof.Machine

/-- `rounds(keyLength, blockSize)` (R151): `Nr = max(Nk, Nb) + 6`. -/
def roundCount (keyLength blockSize : Nat) : Nat := max (keyLength / 4) (blockSize / 4) + 6

/-- `RotWord` (R153). -/
def rotWord (v : Word) : Word := ⟨v.b1, v.b2, v.b3, v.b0⟩

/-- `SubWord` (R154). -/
def subWord (v : Word) : Word := v.map sbox

/-- `n` doublings from 0x01, that is `0x02^n`. -/
def rconPower : Nat → Byte
  | 0 => 0x01
  | n + 1 => xtime (rconPower n)

/-- `RCON[j]` for `j >= 1` (R155): `0x02^(j-1)`. `RCON[0]` does not exist, and the expansion never asks for it,
since `i / Nk >= 1` there (log entry 6). -/
def rcon (j : Nat) : Byte := rconPower (j - 1)

/-- The round constant as a word (R155): exclusive-ored into `b0` only. -/
def rconWord (j : Nat) : Word := ⟨rcon j, 0, 0, 0⟩

/-- Four consecutive bytes make a word, in ascending order (R54, R180). -/
def bytesToWords : List Byte → List Word
  | b0 :: b1 :: b2 :: b3 :: rest => ⟨b0, b1, b2, b3⟩ :: bytesToWords rest
  | _ => []

/-- The bytes of words, in order (R55, R157). -/
def wordsToBytes (ws : List Word) : List Byte := ws.flatMap Word.toBytes

/-- `t` of the loop of R156 at word `i`, from the preceding word. -/
def scheduleTemp (nk i : Nat) (prev : Word) : Word :=
  if i % nk = 0 then (subWord (rotWord prev)).xor (rconWord (i / nk))
  else if nk > 6 ∧ i % nk = 4 then subWord prev
  else prev

/-- The next word (R156): `W[i] = W[i-Nk] xor t`. `acc` holds `W[i-1], W[i-2], ...`, the newest first. -/
def nextScheduleWord (nk i : Nat) (acc : List Word) : Word :=
  (acc.getD (nk - 1) Word.zero).xor (scheduleTemp nk i (acc.getD 0 Word.zero))

/-- `fuel` steps of the loop of R156 from word `i`. -/
def expandLoop (nk : Nat) : Nat → Nat → List Word → List Word
  | 0, _, acc => acc
  | fuel + 1, i, acc => expandLoop nk fuel (i + 1) (nextScheduleWord nk i acc :: acc)

/-- `NW = Nb * (Nr + 1)` (R152). -/
def scheduleLength (nk nb : Nat) : Nat := nb * (max nk nb + 6 + 1)

/-- `KeyExpansion(key, Nb)` (R156): the `Nk` words of the key, then the loop up to `NW`. -/
def keyExpansion (key : List Byte) (nb : Nat) : List Word :=
  let nk := key.length / 4
  (expandLoop nk (scheduleLength nk nb - nk) nk (bytesToWords key).reverse).reverse

/-- Subkey `r` (R157): the words `W[r*Nb .. r*Nb + Nb - 1]`. -/
def subkey (w : List Word) (nb r : Nat) : List Word := (w.drop (r * nb)).take nb

/-- The state writes of a successful `MAKEKEY` (R158), all of them at once (R34, R160). -/
def State.establish (s : State) (keyLength blockSize : Nat) (key chainInit : List Byte) : State :=
  { s with
    keyInit := true
    keylen := BitVec.ofNat 8 keyLength
    blksize := BitVec.ofNat 8 blockSize
    rounds := BitVec.ofNat 8 (roundCount keyLength blockSize)
    key := key
    w := keyExpansion key (blockSize / 4)
    chain0 := chainInit
    chain := chainInit }

/-- `MAKEKEY` (R158, R159). -/
def execMakeKey (nullChain : Bool) (keyLength blockSize : Nat) (s : State) : Result :=
  if keylenSupported keyLength then
    if blksizeSupported blockSize then
      withDin s (makeKeyDinLength nullChain keyLength blockSize)
        (succeed 0 [] (s.establish keyLength blockSize (keyOperand s.cur.din keyLength)
          (chainInitOperand nullChain s.cur.din keyLength blockSize)))
    else raise .invalidBlockSize s
  else raise .invalidKeyLength s

end Sys2Proof.Machine
end

