-- ==== Sys2Proof/Machine/RoundEngine.lean ====
section
/-!
DEFINITION. The round transformation engine and the block commands (spec 43_round_engine.md).

The working state `S` (R180) is the list of its `Nb` columns; column `c` is the word
`(S[0][c], S[1][c], S[2][c], S[3][c])`. Every step maps an old state to a new one, so no step works in place
(R192).
-/

namespace Sys2Proof.Machine

/-- `load_state` (R53, R180): `S[j][c] = b[j + 4*c]`, so column `c` is the word of bytes `4c .. 4c+3`. -/
def loadState (b : List Byte) : List Word := bytesToWords b

/-- `store_state` (R53, R180): `b[i] = S[i mod 4][i / 4]`. -/
def storeState (st : List Word) : List Byte := wordsToBytes st

/-- `AddRoundKey(S, r)` (R181). -/
def addRoundKey (w : List Word) (nb r : Nat) (st : List Word) : List Word :=
  List.zipWith Word.xor st (subkey w nb r)

/-- `SubBytes` (R182). -/
def subBytes (st : List Word) : List Word := st.map (Word.map sbox)

/-- `InvSubBytes` (R185). -/
def invSubBytes (st : List Word) : List Word := st.map (Word.map invSbox)

/-- `SHIFT[Nb][j]` (R183). -/
def shiftAmount (nb j : Nat) : Nat :=
  if nb = 8 then [0, 1, 3, 4].getD j 0 else [0, 1, 2, 3].getD j 0

/-- Column `c` of the working state. -/
def column (st : List Word) (c : Nat) : Word := st.getD c Word.zero

/-- `ShiftRows` (R183): `S'[j][c] = S[j][(c + SHIFT[Nb][j]) mod Nb]`. -/
def shiftRows (st : List Word) : List Word :=
  let nb := st.length
  (List.range nb).map fun c =>
    ⟨(column st ((c + shiftAmount nb 0) % nb)).b0, (column st ((c + shiftAmount nb 1) % nb)).b1,
     (column st ((c + shiftAmount nb 2) % nb)).b2, (column st ((c + shiftAmount nb 3) % nb)).b3⟩

/-- `InvShiftRows` (R186): `S'[j][c] = S[j][(c - SHIFT[Nb][j]) mod Nb]`, the non-negative remainder. -/
def invShiftRows (st : List Word) : List Word :=
  let nb := st.length
  (List.range nb).map fun c =>
    ⟨(column st ((c + nb - shiftAmount nb 0) % nb)).b0, (column st ((c + nb - shiftAmount nb 1) % nb)).b1,
     (column st ((c + nb - shiftAmount nb 2) % nb)).b2, (column st ((c + nb - shiftAmount nb 3) % nb)).b3⟩

/-- One column of `MixColumns` (R184). -/
def mixColumn (a : Word) : Word :=
  ⟨gfMul 0x02 a.b0 ^^^ gfMul 0x03 a.b1 ^^^ a.b2 ^^^ a.b3,
   a.b0 ^^^ gfMul 0x02 a.b1 ^^^ gfMul 0x03 a.b2 ^^^ a.b3,
   a.b0 ^^^ a.b1 ^^^ gfMul 0x02 a.b2 ^^^ gfMul 0x03 a.b3,
   gfMul 0x03 a.b0 ^^^ a.b1 ^^^ a.b2 ^^^ gfMul 0x02 a.b3⟩

/-- `MixColumns` (R184). -/
def mixColumns (st : List Word) : List Word := st.map mixColumn

/-- One column of `InvMixColumns` (R187). -/
def invMixColumn (a : Word) : Word :=
  ⟨gfMul 0x0E a.b0 ^^^ gfMul 0x0B a.b1 ^^^ gfMul 0x0D a.b2 ^^^ gfMul 0x09 a.b3,
   gfMul 0x09 a.b0 ^^^ gfMul 0x0E a.b1 ^^^ gfMul 0x0B a.b2 ^^^ gfMul 0x0D a.b3,
   gfMul 0x0D a.b0 ^^^ gfMul 0x09 a.b1 ^^^ gfMul 0x0E a.b2 ^^^ gfMul 0x0B a.b3,
   gfMul 0x0B a.b0 ^^^ gfMul 0x0D a.b1 ^^^ gfMul 0x09 a.b2 ^^^ gfMul 0x0E a.b3⟩

/-- `InvMixColumns` (R187). -/
def invMixColumns (st : List Word) : List Word := st.map invMixColumn

/-- One of the rounds `1 .. Nr-1` of `Cipher` (R188). -/
def cipherRound (w : List Word) (nb : Nat) (st : List Word) (rnd : Nat) : List Word :=
  addRoundKey w nb rnd (mixColumns (shiftRows (subBytes st)))

/-- One of the rounds `Nr-1 .. 1` of `InvCipher` (R189). -/
def invCipherRound (w : List Word) (nb : Nat) (st : List Word) (rnd : Nat) : List Word :=
  invMixColumns (addRoundKey w nb rnd (invSubBytes (invShiftRows st)))

/-- The round indices `1 .. Nr-1`, ascending. -/
def innerRounds (nr : Nat) : List Nat := List.range' 1 (nr - 1)

/-- `Cipher(in)` (R188). -/
def cipher (w : List Word) (nb nr : Nat) (block : List Byte) : List Byte :=
  let st := addRoundKey w nb 0 (loadState block)
  let st := (innerRounds nr).foldl (cipherRound w nb) st
  storeState (addRoundKey w nb nr (shiftRows (subBytes st)))

/-- `InvCipher(in)` (R189): the direct inverse, subkeys `Nr, Nr-1, ..., 0`. -/
def invCipher (w : List Word) (nb nr : Nat) (block : List Byte) : List Byte :=
  let st := addRoundKey w nb nr (loadState block)
  let st := (innerRounds nr).reverse.foldl (invCipherRound w nb) st
  storeState (addRoundKey w nb 0 (invSubBytes (invShiftRows st)))

/-- `Cipher` under the session registers `W`, `BLKSIZE`, `ROUNDS` (R188). -/
def State.cipher (s : State) (block : List Byte) : List Byte := Machine.cipher s.w s.nb s.nr block

/-- `InvCipher` under the session registers (R189). -/
def State.invCipher (s : State) (block : List Byte) : List Byte := Machine.invCipher s.w s.nb s.nr block

/-- `ENCRYPTBLOCK` (R190). -/
def execEncryptBlock (s : State) : Result :=
  withKey s (withDin s s.bs (succeed 0 (s.cipher (memRead s.cur.din 0 s.bs)) s))

/-- `DECRYPTBLOCK` (R191). -/
def execDecryptBlock (s : State) : Result :=
  withKey s (withDin s s.bs (succeed 0 (s.invCipher (memRead s.cur.din 0 s.bs)) s))

end Sys2Proof.Machine
end

