-- ==== Sys2Proof/Machine/Chaining.lean ====
section
/-!
DEFINITION. The chaining controller and `RESETCHAIN` (spec 44_chaining_controller.md).

A chained command runs over the input blocks strictly in order (R66); from an input block and the Chain
Register each mode gives an output block and the new Chain Register. `DOUT` is the output blocks in order,
block `k` at offset `k * BLKSIZE` (R52, R56).
-/

namespace Sys2Proof.Machine

/-- One block of a chained mode: input block and `CHAIN` give output block and new `CHAIN`. -/
abbrev ChainStep := List Byte → List Byte → List Byte × List Byte

/-- The loop of R223, R224, R226, R227 over the input blocks, from `CHAIN = c`: the output blocks and the
final `CHAIN`. -/
def chainLoop (f : ChainStep) : List (List Byte) → List Byte → List (List Byte) × List Byte
  | [], c => ([], c)
  | block :: rest, c =>
      let one := f block c
      let others := chainLoop f rest one.2
      (one.1 :: others.1, others.2)

/-- One block of `ENCRYPT.CBC` (R223): `Y = Cipher(P xor C)`; `CHAIN <- Y`. -/
def State.cbcEncryptStep (s : State) : ChainStep := fun p c =>
  let y := s.cipher (bytesXor p c)
  (y, y)

/-- One block of `ENCRYPT.CFB` (R224): `Y = Cipher(C) xor P`; `CHAIN <- Y`. -/
def State.cfbEncryptStep (s : State) : ChainStep := fun p c =>
  let y := bytesXor (s.cipher c) p
  (y, y)

/-- One block of `DECRYPT.CBC` (R226): `P = InvCipher(Y) xor C`; `CHAIN <- Y`. -/
def State.cbcDecryptStep (s : State) : ChainStep := fun y c => (bytesXor (s.invCipher y) c, y)

/-- One block of `DECRYPT.CFB` (R227): `P = Cipher(C) xor Y`, "Cipher, not InvCipher"; `CHAIN <- Y`. -/
def State.cfbDecryptStep (s : State) : ChainStep := fun y c => (bytesXor (s.cipher c) y, y)

/-- The checks common to the six multi-block commands, in the order of R220, then R68. -/
def withBuffer (s : State) (k : Result) : Result := withKey s (withWholeBlocks s (withDin s s.n k))

/-- An ECB command (R222, R225): every block on its own, `CHAIN` neither read nor written. -/
def runEcb (f : List Byte → List Byte) (s : State) : Result :=
  withBuffer s (succeed 0 (s.inputBlocks.map f).flatten s)

/-- A chained command (R223, R224, R226, R227): from the `CHAIN` that the last command left (R229). -/
def runChained (f : ChainStep) (s : State) : Result :=
  withBuffer s
    (succeed 0 (chainLoop f s.inputBlocks s.chain).1.flatten
      { s with chain := (chainLoop f s.inputBlocks s.chain).2 })

/-- `ENCRYPT.ECB` (R222). -/
def execEncryptEcb (s : State) : Result := runEcb s.cipher s

/-- `ENCRYPT.CBC` (R223). -/
def execEncryptCbc (s : State) : Result := runChained s.cbcEncryptStep s

/-- `ENCRYPT.CFB` (R224). -/
def execEncryptCfb (s : State) : Result := runChained s.cfbEncryptStep s

/-- `DECRYPT.ECB` (R225). -/
def execDecryptEcb (s : State) : Result := runEcb s.invCipher s

/-- `DECRYPT.CBC` (R226). -/
def execDecryptCbc (s : State) : Result := runChained s.cbcDecryptStep s

/-- `DECRYPT.CFB` (R227). -/
def execDecryptCfb (s : State) : Result := runChained s.cfbDecryptStep s

/-- `RESETCHAIN` (R228). -/
def execResetChain (s : State) : Result :=
  withKey s (withDin s 0 (succeed 0 [] { s with chain := s.chain0 }))

end Sys2Proof.Machine
end

