-- ==== Sys2Proof/Machine/Dispatch.lean ====
section
/-! DEFINITION. One arm per command, in the order of spec 30_encoding.md R94. -/

namespace Sys2Proof.Machine

def exec (i : Instr) (s : State) : Host.Outcome State Fault Refusal :=
  match i with
  | .makeKey nullChain keyLength blockSize => Sys2Proof.Machine.execMakeKey nullChain keyLength blockSize s
  | .encryptBlock => Sys2Proof.Machine.execEncryptBlock s
  | .decryptBlock => Sys2Proof.Machine.execDecryptBlock s
  | .encryptEcb => Sys2Proof.Machine.execEncryptEcb s
  | .encryptCbc => Sys2Proof.Machine.execEncryptCbc s
  | .encryptCfb => Sys2Proof.Machine.execEncryptCfb s
  | .decryptEcb => Sys2Proof.Machine.execDecryptEcb s
  | .decryptCbc => Sys2Proof.Machine.execDecryptCbc s
  | .decryptCfb => Sys2Proof.Machine.execDecryptCfb s
  | .getKeyLength => Sys2Proof.Machine.execGetKeyLength s
  | .getBlockSize => Sys2Proof.Machine.execGetBlockSize s
  | .getRounds => Sys2Proof.Machine.execGetRounds s
  | .resetChain => Sys2Proof.Machine.execResetChain s

end Sys2Proof.Machine
end

