-- ==== Sys2Proof/Machine/Step.lean ====
section
/-!
DEFINITION. One step of the engine (spec 00_scope.md R6, "one step per command and that step is atomic").
-/

namespace Sys2Proof.Machine

/-- The step for a transaction the port has accepted: decode first, before every other check (R88, R278). -/
def State.perform (s : State) : Host.Outcome State Fault Refusal :=
  match decode s.cur.cmd with
  | .legal i => exec i s
  | .illegal _ => raise .invalidCommand s

/-- One step: the host's next action. With none, nothing changes ("Between two commands nothing in the engine
changes", R6; "the engine does nothing until commanded", R311). -/
def step (s : State) : Host.Outcome State Fault Refusal :=
  match s.inputs with
  | [] => .next s
  | .reset :: rest => .next (s.hostReset rest)
  | .command t :: rest => (s.accept t rest).perform

/-- `s` with the command word `w` (of `nbits` bits, numbered as opcode_table.json numbers them) as the host's next
command: `LEN` and `DIN`, the bits above the word, are zero (`State.zeroTransaction`). -/
def State.withFetchWord (s : State) (nbits w : Nat) : State :=
  { s with inputs := .command (s.zeroTransaction (BitVec.ofNat 32 (w % 2 ^ nbits))) :: s.inputs }

end Sys2Proof.Machine
end

