-- ==== Sys2Proof/Machine/Calls.lean ====
section
/-!
DEFINITION. The nine operations of the document as transactions of the port (spec 30_encoding.md R82, R93): the
first table of R93, and the pseudo-forms of its second table. They are what a host writes; "the hardware sees
only the expanded form". `LEN` is ignored by every command but `ENCRYPT.*` and `DECRYPT.*` (R86); where R93 says
"ignored" these forms carry 0 (log entry 14). R93 gives no word for an operand too large for its field; there the
forms keep the operand's low bits (DESIGN CHOICE, log entry 21).
-/

namespace Sys2Proof.Machine

/-- The chaining mode operand of `Encrypt` and `Decrypt` (R83). It has no default (R93). -/
inductive Mode where
  | ecb
  | cbc
  | cfb
  deriving DecidableEq, Repr

/-- `Encrypt` in a mode is one of three commands (R82, R94). -/
def encryptInstr : Mode → Instr
  | .ecb => .encryptEcb
  | .cbc => .encryptCbc
  | .cfb => .encryptCfb

/-- `Decrypt` in a mode is one of three commands (R82, R94). -/
def decryptInstr : Mode → Instr
  | .ecb => .decryptEcb
  | .cbc => .decryptCbc
  | .cfb => .decryptCfb

/-- `MakeKey(key, chainInit, keyLength, blockSize)` (R93). -/
def callMakeKey (key chainInit : List Byte) (keyLength blockSize : Nat) : Transaction :=
  ⟨encode (.makeKey false keyLength blockSize), 0, key ++ chainInit⟩

/-- `MakeKey(key, sm_chain0, keyLength, blockSize)` (R93). -/
def callMakeKeyNullChain (key : List Byte) (keyLength blockSize : Nat) : Transaction :=
  ⟨encode (.makeKey true keyLength blockSize), 0, key⟩

/-- Pseudo-form `MakeKey(key, chainInit, keyLength)` (R93). -/
def callMakeKeyDefaultBlock (key chainInit : List Byte) (keyLength : Nat) : Transaction :=
  callMakeKey key chainInit keyLength Config.defaultBlockSize

/-- Pseudo-form `MakeKey(key, chainInit)` (R93). -/
def callMakeKeyDefaultSizes (key chainInit : List Byte) : Transaction :=
  callMakeKey key chainInit Config.defaultBlockSize Config.defaultBlockSize

/-- Pseudo-form `MakeKey(key)` (R93). -/
def callMakeKeyBare (key : List Byte) : Transaction :=
  callMakeKeyNullChain key Config.defaultBlockSize Config.defaultBlockSize

/-- `EncryptBlock(in)` (R93). -/
def callEncryptBlock (block : List Byte) : Transaction := ⟨encode .encryptBlock, 0, block⟩

/-- `DecryptBlock(in)` (R93). -/
def callDecryptBlock (block : List Byte) : Transaction := ⟨encode .decryptBlock, 0, block⟩

/-- `Encrypt(in, mode)` (R93): `n = len(in)`. DESIGN CHOICE (log entry 21): for a buffer of 2^32 bytes or more, for
which R93 gives no word, `LEN` is `n` modulo 2^32. -/
def callEncrypt (buffer : List Byte) (mode : Mode) : Transaction :=
  ⟨encode (encryptInstr mode), BitVec.ofNat 32 buffer.length, buffer⟩

/-- `Decrypt(in, mode)` (R93): `n = len(in)`. DESIGN CHOICE (log entry 21): for a buffer of 2^32 bytes or more, for
which R93 gives no word, `LEN` is `n` modulo 2^32. -/
def callDecrypt (buffer : List Byte) (mode : Mode) : Transaction :=
  ⟨encode (decryptInstr mode), BitVec.ofNat 32 buffer.length, buffer⟩

/-- `GetKeyLength()` (R93). -/
def callGetKeyLength : Transaction := ⟨encode .getKeyLength, 0, []⟩

/-- `GetBlockSize()` (R93). -/
def callGetBlockSize : Transaction := ⟨encode .getBlockSize, 0, []⟩

/-- `GetRounds()` (R93). -/
def callGetRounds : Transaction := ⟨encode .getRounds, 0, []⟩

/-- `ResetChain()` (R93). -/
def callResetChain : Transaction := ⟨encode .resetChain, 0, []⟩

end Sys2Proof.Machine
end

