-- ==== Sys2Proof/Machine/Instances.lean ====
section
/-!
DEFINITION. Several engines side by side (spec 60_exceptions.md R285): each instance has its own state and its
own port, they share only the constants of R30, and there is no message between them.
-/

namespace Sys2Proof.Machine

/-- One step of instance `k` of a row of instances. An instance that is not there has no step. -/
def stepInstance (k : Nat) (all : List State) : Host.Outcome (List State) Fault Refusal :=
  match all[k]? with
  | none => .next all
  | some s =>
    match step s with
    | .next t => .next (all.set k t)
    | .fault f => .fault f
    | .refused r => .refused r

end Sys2Proof.Machine
end

