-- ==== Sys2Proof/Safety.lean ====
section
/-!
DEFINITION. What the statements are said in: the session invariant of spec 10_state.md R34, the classes of
commands the rules speak of, and the checks that stand before every effect (60_exceptions.md R270, R278).
-/

namespace Sys2Proof

/-- The command is `MAKEKEY`, the only one that does not test `KEY_INIT` (R158). -/
def Instr.isMakeKey : Instr → Bool
  | .makeKey _ _ _ => true
  | .encryptBlock => false
  | .decryptBlock => false
  | .encryptEcb => false
  | .encryptCbc => false
  | .encryptCfb => false
  | .decryptEcb => false
  | .decryptCbc => false
  | .decryptCfb => false
  | .getKeyLength => false
  | .getBlockSize => false
  | .getRounds => false
  | .resetChain => false

/-- The command is one of the six multi-block commands (R220). -/
def Instr.multiBlock : Instr → Bool
  | .makeKey _ _ _ => false
  | .encryptBlock => false
  | .decryptBlock => false
  | .encryptEcb => true
  | .encryptCbc => true
  | .encryptCfb => true
  | .decryptEcb => true
  | .decryptCbc => true
  | .decryptCfb => true
  | .getKeyLength => false
  | .getBlockSize => false
  | .getRounds => false
  | .resetChain => false

/-- The command is one of the four chained commands (R28): CBC or CFB, in either direction. -/
def Instr.chained : Instr → Bool
  | .makeKey _ _ _ => false
  | .encryptBlock => false
  | .decryptBlock => false
  | .encryptEcb => false
  | .encryptCbc => true
  | .encryptCfb => true
  | .decryptEcb => false
  | .decryptCbc => true
  | .decryptCfb => true
  | .getKeyLength => false
  | .getBlockSize => false
  | .getRounds => false
  | .resetChain => false

namespace Machine

/-- A supported size (R4, R159): 16, 24 or 32 bytes. -/
abbrev SizeOk (size : Nat) : Prop := size = 16 ∨ size = 24 ∨ size = 32

/-- What R34 says of a keyed engine, with the lengths of R25 to R28: the registers belong to one session. -/
abbrev State.InSession (s : State) : Prop :=
  SizeOk s.keylen.toNat ∧ SizeOk s.blksize.toNat ∧
  s.rounds.toNat = max (s.keylen.toNat / 4) (s.blksize.toNat / 4) + 6 ∧
  s.key.length = s.keylen.toNat ∧
  s.w = keyExpansion s.key (s.blksize.toNat / 4) ∧
  s.chain0.length = s.blksize.toNat ∧
  s.chain.length = s.blksize.toNat

/-- The session invariant (R34): "Whenever `KEY_INIT = 1`". -/
abbrev State.Inv (s : State) : Prop := s.keyInit = true → s.InSession

/-- A keyed engine in a session: the premise of the statements about what a command computes. -/
abbrev State.Ready (s : State) : Prop := s.keyInit = true ∧ s.InSession

/-- The check of every command but `MAKEKEY` (R278 group 3): the session first, then the length of a multi-block
command. -/
def State.sessionError (s : State) (multiBlock : Bool) : Option Status :=
  if s.keyInit = false then some .keyNotInitialized
  else if multiBlock = true ∧ s.cur.len.toNat % s.blksize.toNat ≠ 0 then some .invalidInputLength
  else none

/-- The error a legal command raises, highest priority first (R278 groups 2 and 3), or none. -/
def State.errorOf (s : State) : Instr → Option Status
  | .makeKey _ keyLength blockSize =>
      if ¬ SizeOk keyLength then some .invalidKeyLength
      else if ¬ SizeOk blockSize then some .invalidBlockSize
      else none
  | .encryptBlock => s.sessionError Instr.encryptBlock.multiBlock
  | .decryptBlock => s.sessionError Instr.decryptBlock.multiBlock
  | .encryptEcb => s.sessionError Instr.encryptEcb.multiBlock
  | .encryptCbc => s.sessionError Instr.encryptCbc.multiBlock
  | .encryptCfb => s.sessionError Instr.encryptCfb.multiBlock
  | .decryptEcb => s.sessionError Instr.decryptEcb.multiBlock
  | .decryptCbc => s.sessionError Instr.decryptCbc.multiBlock
  | .decryptCfb => s.sessionError Instr.decryptCfb.multiBlock
  | .getKeyLength => s.sessionError Instr.getKeyLength.multiBlock
  | .getBlockSize => s.sessionError Instr.getBlockSize.multiBlock
  | .getRounds => s.sessionError Instr.getRounds.multiBlock
  | .resetChain => s.sessionError Instr.resetChain.multiBlock

/-- The checks of R220, in their order, as the multi-block command `i` answers them: the session (R275), then the
length (R274), whatever `DIN` holds. -/
def State.ChecksFirst (s : State) (i : Instr) : Prop :=
  (s.keyInit = false → exec i s = .next { s with responses := s.responses ++ [⟨4, 0, []⟩] }) ∧
  (s.keyInit = true → s.cur.len.toNat % s.blksize.toNat ≠ 0 →
    exec i s = .next { s with responses := s.responses ++ [⟨3, 0, []⟩] })

/-- `n` bytes written as one hexadecimal number, the first byte leftmost, as the vectors of the spec are written. -/
def hexBytes (n value : Nat) : List Byte :=
  (List.range n).map fun i => BitVec.ofNat 8 (value / 256 ^ (n - 1 - i))

/-- One row of spec 95_test_vectors.md section 1.4: the sizes in bytes, `Nr`, and the "ciphertext of pt". -/
structure BlockVector where
  keyLength : Nat
  blockSize : Nat
  rounds : Nat
  ciphertext : Nat
  deriving DecidableEq, Repr

/-- The nine rows of spec 95_test_vectors.md section 1.4. -/
def blockVectors : List BlockVector :=
  [⟨16, 16, 10,
     0x69c4e0d86a7b0430d8cdb78070b4c55a⟩,
   ⟨16, 24, 12,
     0xe64018d211d8349b350f38893d7d23899fece7a9aca7c6ba⟩,
   ⟨16, 32, 14,
     0x98c6f98ba9631b91c34f431e0887c561b6ac44c985cecd38dbc4cb30b9170d2f⟩,
   ⟨24, 16, 12,
     0xdda97ca4864cdfe06eaf70a0ec0d7191⟩,
   ⟨24, 24, 12,
     0x78be2d48f76d71da6966f3a175fb71ad66b70b2076c3cf1d⟩,
   ⟨24, 32, 14,
     0x3c386395e910345a59a7dd165dcbda604bf072f0a03a6b0055a79b734e668868⟩,
   ⟨32, 16, 14,
     0x8ea2b7ca516745bfeafc49904b496089⟩,
   ⟨32, 24, 14,
     0x65d851df8d04b5cbb510935fdd1eb17b33efb8cb255ee712⟩,
   ⟨32, 32, 14,
     0x288fa9d23d00d9dc0a39b33fa92867c6488b5e0f18a6f74c072078ec815462e6⟩]

/-- The key of section 1.4: byte `i` is `i`. -/
def BlockVector.key (v : BlockVector) : List Byte := (List.range v.keyLength).map (BitVec.ofNat 8)

/-- The plaintext of section 1.4: byte `i` is `0x11 * i` modulo 256. -/
def BlockVector.plaintext (v : BlockVector) : List Byte :=
  (List.range v.blockSize).map fun i => BitVec.ofNat 8 (0x11 * i)

/-- The host's action is a command that is not `MAKEKEY`, or an illegal word: it stays within the session
(R162). -/
def HostAction.staysInSession : HostAction → Bool
  | .reset => false
  | .command t =>
    match decode t.cmd with
    | .legal i => !i.isMakeKey
    | .illegal _ => true

end Machine

end Sys2Proof
end

