-- ==== Sys2Proof/Certificates/Slice0/Obligations.lean ====
section
/-!
DEFINITION. The statements for the provers. Each docstring names the rules of spec/ it formalises.

An equation `exec i s = .next { s with … }` is also the frame of the command: every register, the latched
transaction, the waiting host actions and the earlier responses that the record does not name are unchanged.
`⟨status, rval, dout⟩` is a response (R80). The engine has no memory the host can address (R31): the bytes a
command produces are its `DOUT`, and `memRead dout (k * bs) bs` is output block `k` (R52, R56).
-/

open Sys2Proof Sys2Proof.Machine

/-! ## Commands and their words -/

/-- The thirteen command words as R93 and R94 write them, and what they stand for. -/
def Obligations.DecodeReadsTheThirteenWords : Prop :=
  decode 0x00101001 = .legal (.makeKey false 16 16) ∧ decode 0x00201841 = .legal (.makeKey true 24 32) ∧
  decode 0x00000002 = .legal .encryptBlock ∧ decode 0x00000003 = .legal .decryptBlock ∧
  decode 0x00000004 = .legal .encryptEcb ∧ decode 0x00000014 = .legal .encryptCbc ∧
  decode 0x00000024 = .legal .encryptCfb ∧ decode 0x00000005 = .legal .decryptEcb ∧
  decode 0x00000015 = .legal .decryptCbc ∧ decode 0x00000025 = .legal .decryptCfb ∧
  decode 0x00000006 = .legal .getKeyLength ∧ decode 0x00000007 = .legal .getBlockSize ∧
  decode 0x00000008 = .legal .getRounds ∧ decode 0x00000009 = .legal .resetChain

/-- Every well-formed command, with every operand value its fields admit, comes back from its word. -/
def Obligations.DecodeOfEncodeIsTheCommand : Prop :=
  ∀ i : Instr, i.wf = true → decode (encode i) = .legal i

/-- Every legal word of the 2^32 has one meaning, and that meaning's word is the word itself: no bit is dropped. -/
def Obligations.EncodeOfDecodeIsTheWord : Prop :=
  ∀ (cmd : BitVec 32) (i : Instr), decode cmd = .legal i → i.wf = true ∧ encode i = cmd

/-- R94: a legal word is selected by exactly the row of its command, an illegal word by none. -/
def Obligations.OpcodeRowsSelectExactlyTheLegalWords : Prop :=
  ∀ cmd : BitVec 32,
    (∀ i, decode cmd = .legal i →
      (opcodeRows.filter (fun row => row.selects cmd)).map OpcodeRow.mnemonic = [i.mnemonic]) ∧
    (∀ why, decode cmd = .illegal why → opcodeRows.filter (fun row => row.selects cmd) = [])

/-- R85, with R81 and R84: the size operands are the byte counts of bits 15:8 and 23:16, unscaled, and `Z` is
bit 6, for every value the fields hold. -/
def Obligations.MakeKeyWordCarriesUnscaledSizes : Prop :=
  ∀ (z : Bool) (keyLength blockSize : Nat), keyLength < 256 → blockSize < 256 →
    decode (BitVec.ofNat 32 (0x00000001 + z.toNat * 64 + keyLength * 256 + blockSize * 65536)) =
      .legal (.makeKey z keyLength blockSize)

/-- The call forms of R93's first table, the whole transaction (`CMD`, `LEN`, `DIN`), and the three shortened calls of
its second table: for operands that fit their fields (sizes below 256, a buffer below 2^32 bytes). What a call form
writes for a larger operand is the model's choice (log entry 21) and not spoken of; the zero written as an ignored
`LEN` is the model's choice too (log entry 14). -/
def Obligations.CallFormsHaveTheirCommandWords : Prop :=
  (∀ (key chainInit : List Byte) (keyLength blockSize : Nat), keyLength < 256 → blockSize < 256 →
    (callMakeKey key chainInit keyLength blockSize).cmd.toNat = 0x00000001 + keyLength * 256 + blockSize * 65536 ∧
    (callMakeKey key chainInit keyLength blockSize).len = 0 ∧
    (callMakeKey key chainInit keyLength blockSize).din = key ++ chainInit ∧
    (callMakeKeyNullChain key keyLength blockSize).cmd.toNat =
      0x00000041 + keyLength * 256 + blockSize * 65536 ∧
    (callMakeKeyNullChain key keyLength blockSize).len = 0 ∧
    (callMakeKeyNullChain key keyLength blockSize).din = key) ∧
  (∀ (key chainInit : List Byte) (keyLength : Nat),
    callMakeKeyDefaultBlock key chainInit keyLength = callMakeKey key chainInit keyLength 16 ∧
    callMakeKeyDefaultSizes key chainInit = callMakeKey key chainInit 16 16 ∧
    callMakeKeyBare key = ⟨0x00101041, 0, key⟩) ∧
  (∀ block : List Byte, callEncryptBlock block = ⟨0x00000002, 0, block⟩ ∧
    callDecryptBlock block = ⟨0x00000003, 0, block⟩) ∧
  (∀ (buffer : List Byte) (m : Mode) (encryptWord decryptWord : BitVec 32), buffer.length < 2 ^ 32 →
    (m = .ecb → encryptWord = 0x00000004 ∧ decryptWord = 0x00000005) →
    (m = .cbc → encryptWord = 0x00000014 ∧ decryptWord = 0x00000015) →
    (m = .cfb → encryptWord = 0x00000024 ∧ decryptWord = 0x00000025) →
      (callEncrypt buffer m).cmd = encryptWord ∧ (callEncrypt buffer m).len.toNat = buffer.length ∧
      (callEncrypt buffer m).din = buffer ∧ (callDecrypt buffer m).cmd = decryptWord ∧
      (callDecrypt buffer m).len.toNat = buffer.length ∧ (callDecrypt buffer m).din = buffer) ∧
  callGetKeyLength = ⟨0x00000006, 0, []⟩ ∧ callGetBlockSize = ⟨0x00000007, 0, []⟩ ∧
  callGetRounds = ⟨0x00000008, 0, []⟩ ∧ callResetChain = ⟨0x00000009, 0, []⟩

/-! ## Steps, errors and refusals -/

/-- A step runs the command that the presented word decodes to: the transaction is latched at the port, the
host's later actions wait, and the step is `exec` of that command (R6, R69). That the port is a part of the state
is the model's choice (log entry 4). -/
def Obligations.StepRunsTheDecodedCommand : Prop :=
  ∀ (s : State) (tr : Transaction) (rest : List HostAction) (i : Instr),
    s.inputs = .command tr :: rest → decode tr.cmd = .legal i →
      step s = exec i { s with cur := tr, inputs := rest }

/-- R6, "Between two commands nothing in the engine changes". -/
def Obligations.IdleStepChangesNothing : Prop :=
  ∀ s : State, s.inputs = [] → step s = .next s

/-- R310: the host's reset action gives a fresh, unkeyed instance at the same port; earlier responses stand. The
registers other than `KEY_INIT` are not spoken of: R36 gives them no value. That the optional action is there, and
what stands at the port after it, is the model's choice (log entry 5). -/
def Obligations.HostResetGivesAnUnkeyedInstance : Prop :=
  State.reset.keyInit = false ∧
  ∀ (s : State) (rest : List HostAction), s.inputs = .reset :: rest →
    ∃ t, step s = .next t ∧ t.keyInit = false ∧ t.inputs = rest ∧ t.responses = s.responses

/-- R88: the words that are illegal, read off the number `CMD`; such a word raises `InvalidCommand` whatever the
state, `LEN` and `DIN`, and every other word is legal. -/
def Obligations.IllegalWordsRaiseInvalidCommand : Prop :=
  ∀ (s : State) (tr : Transaction) (rest : List HostAction) (c op mode z keylen blksize : Nat),
    s.inputs = .command tr :: rest → tr.cmd.toNat = c → c % 16 = op → c / 16 % 4 = mode → c / 64 % 2 = z →
    c / 256 % 256 = keylen → c / 65536 % 256 = blksize →
    (((op = 0 ∨ 10 ≤ op) ∨ ((op = 4 ∨ op = 5) ∧ mode = 3) ∨ (¬ (op = 4 ∨ op = 5) ∧ mode ≠ 0) ∨
        (op ≠ 1 ∧ z = 1) ∨ (op ≠ 1 ∧ (keylen ≠ 0 ∨ blksize ≠ 0)) ∨ c / 128 % 2 = 1 ∨ c / 16777216 ≠ 0) →
      step s = .next { s with cur := tr, inputs := rest, responses := s.responses ++ [⟨5, 0, []⟩] }) ∧
    (¬ ((op = 0 ∨ 10 ≤ op) ∨ ((op = 4 ∨ op = 5) ∧ mode = 3) ∨ (¬ (op = 4 ∨ op = 5) ∧ mode ≠ 0) ∨
        (op ≠ 1 ∧ z = 1) ∨ (op ≠ 1 ∧ (keylen ≠ 0 ∨ blksize ≠ 0)) ∨ c / 128 % 2 = 1 ∨ c / 16777216 ≠ 0) →
      ∃ i, decode tr.cmd = .legal i)

/-- R278: which error a command word meets, highest priority first, and that a command that meets none is answered
with `STATUS = 0`. -/
def Obligations.ErrorsFollowTheirPriority : Prop :=
  ∀ (s : State) (tr : Transaction) (rest : List HostAction), s.inputs = .command tr :: rest →
    (∀ why, decode tr.cmd = .illegal why →
      step s = .next { s with cur := tr, inputs := rest, responses := s.responses ++ [⟨5, 0, []⟩] }) ∧
    (∀ z keyLength blockSize, decode tr.cmd = .legal (.makeKey z keyLength blockSize) →
      (¬ SizeOk keyLength →
        step s = .next { s with cur := tr, inputs := rest, responses := s.responses ++ [⟨1, 0, []⟩] }) ∧
      (SizeOk keyLength → ¬ SizeOk blockSize →
        step s = .next { s with cur := tr, inputs := rest, responses := s.responses ++ [⟨2, 0, []⟩] }) ∧
      (SizeOk keyLength → SizeOk blockSize → ∀ t, step s = .next t →
        ∃ r, t.responses = s.responses ++ [r] ∧ r.status = 0)) ∧
    (∀ i, decode tr.cmd = .legal i → i.isMakeKey = false →
      (s.keyInit = false →
        step s = .next { s with cur := tr, inputs := rest, responses := s.responses ++ [⟨4, 0, []⟩] }) ∧
      (s.keyInit = true → i.multiBlock = true → tr.len.toNat % s.blksize.toNat ≠ 0 →
        step s = .next { s with cur := tr, inputs := rest, responses := s.responses ++ [⟨3, 0, []⟩] }) ∧
      (s.keyInit = true → (i.multiBlock = true → tr.len.toNat % s.blksize.toNat = 0) → ∀ t, step s = .next t →
        ∃ r, t.responses = s.responses ++ [r] ∧ r.status = 0))

/-- R275: on an unkeyed engine every legal command other than `MAKEKEY` raises `KeyNotInitialized`, and a
`MAKEKEY` that fails leaves it unkeyed. -/
def Obligations.UnkeyedCommandsRaiseKeyNotInitialized : Prop :=
  ∀ (s : State) (i : Instr), s.keyInit = false →
    (i.isMakeKey = false → exec i s = .next { s with responses := s.responses ++ [⟨4, 0, []⟩] }) ∧
    (∀ z keyLength blockSize, i = .makeKey z keyLength blockSize → ¬ (SizeOk keyLength ∧ SizeOk blockSize) →
      ∃ t, exec i s = .next t ∧ t.keyInit = false)

/-- R279: a response with an error status leaves every register as it was, with `RVAL = 0` and `DOUT` empty. -/
def Obligations.FailedCommandChangesNoRegister : Prop :=
  ∀ (s t : State) (tr : Transaction) (rest : List HostAction) (r : Response),
    s.inputs = .command tr :: rest → step s = .next t → t.responses = s.responses ++ [r] → r.status ≠ 0 →
      r.rval = 0 ∧ r.dout = [] ∧
      t = { s with cur := tr, inputs := rest, responses := s.responses ++ [r] }

/-- R80, R91, R92: a command gets exactly one response, its status is one of the six codes, and `RVAL` is 0 but
for the three accessors. -/
def Obligations.EveryCommandGetsOneResponse : Prop :=
  ∀ (s t : State) (tr : Transaction) (rest : List HostAction),
    s.inputs = .command tr :: rest → step s = .next t →
      t.inputs = rest ∧ ∃ r, t.responses = s.responses ++ [r] ∧ r.status.toNat ≤ 5 ∧
        (r.rval ≠ 0 → decode tr.cmd = .legal .getKeyLength ∨ decode tr.cmd = .legal .getBlockSize ∨
          decode tr.cmd = .legal .getRounds)

/-- R51, R68 and R270: a command has no step exactly when it passes every check of its rule and `len(DIN)` is not the
length that R51 requires of it. That such a command is refused, where R68 says that a model "should" refuse and "may
also" type the case away, is the model's choice (log entry 9); that every other command has a step is R51 and R270. -/
def Obligations.OnlyMalformedTransactionsAreRefused : Prop :=
  ∀ (s : State) (i : Instr),
    (s.errorOf i = none ∧ s.cur.din.length ≠ s.requiredDinLength s.cur.len.toNat i →
      exec i s = .refused .malformedTransaction) ∧
    (¬ (s.errorOf i = none ∧ s.cur.din.length ≠ s.requiredDinLength s.cur.len.toNat i) →
      ∃ t, exec i s = .next t)

/-! ## `MAKEKEY` and the key schedule -/

/-- R158 and R159: the two size checks, the key length first, on any state and any `DIN`; with supported sizes and
the bytes R51 requires, `MAKEKEY` completes on any state, keyed or not, and replaces the whole session. -/
def Obligations.MakeKeyEstablishesTheSession : Prop :=
  ∀ (s : State) (z : Bool) (keyLength blockSize : Nat) (chainInit : List Byte),
    (¬ SizeOk keyLength →
      exec (.makeKey z keyLength blockSize) s = .next { s with responses := s.responses ++ [⟨1, 0, []⟩] }) ∧
    (SizeOk keyLength → ¬ SizeOk blockSize →
      exec (.makeKey z keyLength blockSize) s = .next { s with responses := s.responses ++ [⟨2, 0, []⟩] }) ∧
    (SizeOk keyLength → SizeOk blockSize →
      s.cur.din.length = (if z = true then keyLength else keyLength + blockSize) →
      chainInit = (if z = true then List.replicate blockSize 0 else s.cur.din.drop keyLength) →
        exec (.makeKey z keyLength blockSize) s = .next
          { s with
            keyInit := true
            keylen := BitVec.ofNat 8 keyLength
            blksize := BitVec.ofNat 8 blockSize
            rounds := BitVec.ofNat 8 (max (keyLength / 4) (blockSize / 4) + 6)
            key := s.cur.din.take keyLength
            w := keyExpansion (s.cur.din.take keyLength) (blockSize / 4)
            chain0 := chainInit
            chain := chainInit
            responses := s.responses ++ [⟨0, 0, []⟩] })

/-- R84: `Z = 1` with the key alone has the effect of `Z = 0` with `blockSize` zero bytes of chain-init, for every
legal word (an unsupported size gives the same error in both). -/
def Obligations.NullChainEqualsZeroChainInit : Prop :=
  ∀ (s : State) (key : List Byte) (keyLength blockSize : Nat) (cmd len : BitVec 32),
    key.length = keyLength →
      ∃ t u, exec (.makeKey true keyLength blockSize) { s with cur := ⟨cmd, len, key⟩ } = .next t ∧
        exec (.makeKey false keyLength blockSize)
          { s with cur := ⟨cmd, len, key ++ List.replicate blockSize 0⟩ } = .next u ∧
        t = { u with cur := t.cur }

/-- R160, success: nothing of an earlier session survives, so the state after a successful `MAKEKEY` does not depend
on the registers before it. -/
def Obligations.MakeKeyLeavesNothingOfTheOldSession : Prop :=
  ∀ (s s' : State) (z : Bool) (keyLength blockSize : Nat), SizeOk keyLength → SizeOk blockSize →
    s'.cur = s.cur → s'.inputs = s.inputs → s'.responses = s.responses →
    s.cur.din.length = s.requiredDinLength s.cur.len.toNat (.makeKey z keyLength blockSize) →
      ∃ t, exec (.makeKey z keyLength blockSize) s = .next t ∧ exec (.makeKey z keyLength blockSize) s' = .next t

/-- R153, R154 and R156: `RotWord` and `SubWord` byte by byte; the expansion word by word, the rotated and substituted
bytes written out, and its length. Its last part, that for one key two block sizes agree on their common prefix, is the
sentence of R156 that the spec marks as derived ("`Nb` occurs only in `NW`"). -/
def Obligations.KeyExpansionFollowsTheRecurrence : Prop :=
  (∀ b0 b1 b2 b3 : Byte, rotWord ⟨b0, b1, b2, b3⟩ = ⟨b1, b2, b3, b0⟩ ∧
    subWord ⟨b0, b1, b2, b3⟩ = ⟨sbox b0, sbox b1, sbox b2, sbox b3⟩) ∧
  (∀ (key : List Byte) (nk nb : Nat), key.length = 4 * nk → (nk = 4 ∨ nk = 6 ∨ nk = 8) →
    (nb = 4 ∨ nb = 6 ∨ nb = 8) →
      (keyExpansion key nb).length = nb * (max nk nb + 6 + 1) ∧
      (∀ i, i < nk → (keyExpansion key nb)[i]? =
        some ⟨key.getD (4 * i) 0, key.getD (4 * i + 1) 0, key.getD (4 * i + 2) 0, key.getD (4 * i + 3) 0⟩) ∧
      (∀ i (o p : Word), nk ≤ i → i < nb * (max nk nb + 6 + 1) →
        (keyExpansion key nb)[i - nk]? = some o → (keyExpansion key nb)[i - 1]? = some p →
          (keyExpansion key nb)[i]? = some
            (if i % nk = 0 then
              ⟨o.b0 ^^^ sbox p.b1 ^^^ rcon (i / nk), o.b1 ^^^ sbox p.b2, o.b2 ^^^ sbox p.b3, o.b3 ^^^ sbox p.b0⟩
            else if nk > 6 ∧ i % nk = 4 then
              ⟨o.b0 ^^^ sbox p.b0, o.b1 ^^^ sbox p.b1, o.b2 ^^^ sbox p.b2, o.b3 ^^^ sbox p.b3⟩
            else ⟨o.b0 ^^^ p.b0, o.b1 ^^^ p.b1, o.b2 ^^^ p.b2, o.b3 ^^^ p.b3⟩))) ∧
  (∀ (key : List Byte) (nb nb' i : Nat), SizeOk key.length → (nb = 4 ∨ nb = 6 ∨ nb = 8) →
    (nb' = 4 ∨ nb' = 6 ∨ nb' = 8) → i < (keyExpansion key nb).length → i < (keyExpansion key nb').length →
      (keyExpansion key nb)[i]? = (keyExpansion key nb')[i]?)

/-- R151: the round-count table, its bound and its monotony. -/
def Obligations.RoundCountTable : Prop :=
  (roundCount 16 16 = 10 ∧ roundCount 16 24 = 12 ∧ roundCount 16 32 = 14 ∧
   roundCount 24 16 = 12 ∧ roundCount 24 24 = 12 ∧ roundCount 24 32 = 14 ∧
   roundCount 32 16 = 14 ∧ roundCount 32 24 = 14 ∧ roundCount 32 32 = 14) ∧
  (∀ kl bs, roundCount kl bs = max (kl / 4) (bs / 4) + 6) ∧
  (∀ kl kl' bs bs', SizeOk kl → SizeOk kl' → SizeOk bs → SizeOk bs' → kl ≤ kl' → bs ≤ bs' →
    10 ≤ roundCount kl bs ∧ roundCount kl bs ≤ roundCount kl' bs')

/-- R155: the round constants by their recurrence, their thirty values, and their place in the word. -/
def Obligations.RoundConstants : Prop :=
  rcon 1 = 0x01 ∧ (∀ j, 1 ≤ j → rcon (j + 1) = xtime (rcon j)) ∧ (∀ j, rconWord j = ⟨rcon j, 0, 0, 0⟩) ∧
  (List.range 30).map (fun k => rcon (k + 1)) =
    [0x01, 0x02, 0x04, 0x08, 0x10, 0x20, 0x40, 0x80, 0x1b, 0x36, 0x6c, 0xd8, 0xab, 0x4d, 0x9a,
     0x2f, 0x5e, 0xbc, 0x63, 0xc6, 0x97, 0x35, 0x6a, 0xd4, 0xb3, 0x7d, 0xfa, 0xef, 0xc5, 0x91]

/-! ## Galois-field arithmetic and the S-box -/

/-- R112: doubling, on numbers: shift, and exclusive-or 0x11B when bit 7 was set. -/
def Obligations.DoublingReducesByThePolynomial : Prop :=
  ∀ a : Byte, (xtime a).toNat = if a.toNat < 128 then 2 * a.toNat else (2 * a.toNat) ^^^ 0x11B

/-- R113: `gf_mul` is the polynomial product reduced modulo 0x11B, and the exclusive-or over the set bits `i` of
`b` of the `i`-fold doubling of `a`. -/
def Obligations.MultiplicationIsTheReducedPolynomialProduct : Prop :=
  ∀ a b : Byte, gfMul a b = polyReduce (polyProduct a b) ∧
    gfMul a b = (List.range 8).foldl (fun p i => if b.getLsbD i then p ^^^ xtime^[i] a else p) 0

/-- R114: the laws of the field. -/
def Obligations.FieldLaws : Prop :=
  (∀ a b : Byte, gfMul a b = gfMul b a) ∧
  (∀ a b c : Byte, gfMul a (gfMul b c) = gfMul (gfMul a b) c) ∧
  (∀ a b c : Byte, gfMul a (gfAdd b c) = gfAdd (gfMul a b) (gfMul a c)) ∧
  (∀ a b : Byte, gfMul a b = 0 ↔ a = 0 ∨ b = 0) ∧
  (∀ a : Byte, a ≠ 0 → ∃! b : Byte, gfMul a b = 1)

/-- R115 and R116: `gf_inv0` is 0 at 0, and elsewhere `gf_inv` is the one inverse. That `gf_inv` has no value at 0 is
said by an Option, the model's choice among those of U1 (log entry 15). -/
def Obligations.InverseOfNonzeroBytes : Prop :=
  gfInv 0 = none ∧ gfInv0 0 = 0 ∧
  ∀ a : Byte, a ≠ 0 → gfInv a = some (gfInv0 a) ∧ gfMul a (gfInv0 a) = 1 ∧
    (∀ b : Byte, gfMul a b = 1 → b = gfInv0 a)

/-- R117: the six constant multipliers by doubling and exclusive-or. -/
def Obligations.ConstantMultipliersByDoubling : Prop :=
  ∀ a a2 a4 a8 : Byte, a2 = xtime a → a4 = xtime a2 → a8 = xtime a4 →
    gfMul 0x02 a = a2 ∧ gfMul 0x03 a = a2 ^^^ a ∧ gfMul 0x09 a = a8 ^^^ a ∧ gfMul 0x0B a = a8 ^^^ a2 ^^^ a ∧
    gfMul 0x0D a = a8 ^^^ a4 ^^^ a ∧ gfMul 0x0E a = a8 ^^^ a4 ^^^ a2

/-- R130: the affine transformation bit by bit. -/
def Obligations.AffineTransformationBitByBit : Prop :=
  ∀ (x : Byte) (i : Nat), i < 8 →
    (affine x).getLsbD i = ((x.getLsbD i ^^ x.getLsbD ((i + 4) % 8) ^^ x.getLsbD ((i + 5) % 8) ^^
      x.getLsbD ((i + 6) % 8) ^^ x.getLsbD ((i + 7) % 8)) ^^ (0x63 : Byte).getLsbD i)

/-- R131, R132 and R136: the literal tables are the ones the construction gives, each the inverse of the other. Two
clauses are inferences that the spec marks as its own: the closed form of `INVSBOX` (R132) and that there is no fixed
and no opposite fixed point (R131). -/
def Obligations.SboxTablesFollowConstruction : Prop :=
  (∀ x : Byte, sbox x = affine (gfInv0 x)) ∧ (∀ x : Byte, invSbox (sbox x) = x) ∧
  (∀ y : Byte, sbox (invSbox y) = y) ∧ (∀ y : Byte, invSbox y = gfInv0 (invAffine y)) ∧
  (∀ x : Byte, sbox x ≠ x ∧ sbox x ≠ x ^^^ 0xFF)

/-! ## The round engine and the block commands -/

/-- R53 and R180: a block fills the state column by column, and storing gives the block back. -/
def Obligations.BlockFillsTheStateByColumns : Prop :=
  ∀ (block : List Byte) (nb : Nat), block.length = 4 * nb →
    (loadState block).length = nb ∧ storeState (loadState block) = block ∧
    ∀ c, c < nb → column (loadState block) c =
      ⟨block.getD (4 * c) 0, block.getD (1 + 4 * c) 0, block.getD (2 + 4 * c) 0, block.getD (3 + 4 * c) 0⟩

/-- R181: the round-key addition lane by lane, as blocks, and that it is its own inverse. -/
def Obligations.AddRoundKeyXorsTheSubkey : Prop :=
  ∀ (w st : List Word) (nb r : Nat), st.length = nb → (r + 1) * nb ≤ w.length →
    (addRoundKey w nb r st).length = nb ∧
    (∀ c, c < nb → column (addRoundKey w nb r st) c = (column st c).xor (w.getD (r * nb + c) Word.zero)) ∧
    storeState (addRoundKey w nb r st) = bytesXor (storeState st) (wordsToBytes ((w.drop (r * nb)).take nb)) ∧
    addRoundKey w nb r (addRoundKey w nb r st) = st

/-- R183 and R186: where each byte goes, in the bytes of the block, with the shift table written out. -/
def Obligations.ShiftRowsMovesBytesByTheTable : Prop :=
  ∀ (st : List Word) (nb j c shift : Nat), st.length = nb → (nb = 4 ∨ nb = 6 ∨ nb = 8) → j < 4 → c < nb →
    shift = (if nb = 8 then [0, 1, 3, 4] else [0, 1, 2, 3]).getD j 0 →
      (storeState (shiftRows st)).getD (j + 4 * c) 0 = (storeState st).getD (j + 4 * ((c + shift) % nb)) 0 ∧
      (storeState (invShiftRows st)).getD (j + 4 * ((c + shift) % nb)) 0 = (storeState st).getD (j + 4 * c) 0

/-- R182, R184, R185, R187: what the byte and column steps compute, column by column with the matrices written out,
on a state of any width; and R185, R186, R187: each inverse step undoes its forward step, on every state of a
supported size. -/
def Obligations.InverseStepsUndoForwardSteps : Prop :=
  (∀ (st : List Word) (c : Nat) (a0 a1 a2 a3 : Byte), c < st.length → column st c = ⟨a0, a1, a2, a3⟩ →
    column (subBytes st) c = ⟨sbox a0, sbox a1, sbox a2, sbox a3⟩ ∧
    column (invSubBytes st) c = ⟨invSbox a0, invSbox a1, invSbox a2, invSbox a3⟩ ∧
    column (mixColumns st) c =
      ⟨gfMul 0x02 a0 ^^^ gfMul 0x03 a1 ^^^ a2 ^^^ a3, a0 ^^^ gfMul 0x02 a1 ^^^ gfMul 0x03 a2 ^^^ a3,
       a0 ^^^ a1 ^^^ gfMul 0x02 a2 ^^^ gfMul 0x03 a3, gfMul 0x03 a0 ^^^ a1 ^^^ a2 ^^^ gfMul 0x02 a3⟩ ∧
    column (invMixColumns st) c =
      ⟨gfMul 0x0E a0 ^^^ gfMul 0x0B a1 ^^^ gfMul 0x0D a2 ^^^ gfMul 0x09 a3,
       gfMul 0x09 a0 ^^^ gfMul 0x0E a1 ^^^ gfMul 0x0B a2 ^^^ gfMul 0x0D a3,
       gfMul 0x0D a0 ^^^ gfMul 0x09 a1 ^^^ gfMul 0x0E a2 ^^^ gfMul 0x0B a3,
       gfMul 0x0B a0 ^^^ gfMul 0x0D a1 ^^^ gfMul 0x09 a2 ^^^ gfMul 0x0E a3⟩) ∧
  (∀ st : List Word, (subBytes st).length = st.length ∧ (invSubBytes st).length = st.length ∧
    (mixColumns st).length = st.length ∧ (invMixColumns st).length = st.length) ∧
  ∀ st : List Word, (st.length = 4 ∨ st.length = 6 ∨ st.length = 8) →
    invSubBytes (subBytes st) = st ∧ subBytes (invSubBytes st) = st ∧
    invShiftRows (shiftRows st) = st ∧ shiftRows (invShiftRows st) = st ∧
    invMixColumns (mixColumns st) = st ∧ mixColumns (invMixColumns st) = st

/-- R193: for every schedule and every block, each block function undoes the other. -/
def Obligations.BlockFunctionsAreInverse : Prop :=
  ∀ (w : List Word) (nb nr : Nat) (block : List Byte), (nb = 4 ∨ nb = 6 ∨ nb = 8) →
    w.length = nb * (nr + 1) → block.length = 4 * nb →
      invCipher w nb nr (cipher w nb nr block) = block ∧ cipher w nb nr (invCipher w nb nr block) = block

/-- What the two block functions compute. R188 and R189: their step sequence, for every schedule and every number of
rounds, the state after round `r` being `after r`. Then the worked example of R188 (the all-zero key and block of 16
bytes) and, for each of the nine size pairs, the vector of spec 95_test_vectors.md section 1.4, forward and back: the
key `00 01 02 ..`, the block `00 11 22 ..`. The spec marks the vectors as derived from its rules and, for blocks of 16
bytes, as the standard's. -/
def Obligations.CipherKnownAnswers : Prop :=
  (∀ (w : List Word) (nb nr : Nat) (block : List Byte) (after : Nat → List Word), 1 ≤ nr →
    after 0 = addRoundKey w nb 0 (loadState block) →
    (∀ r, 1 ≤ r → r < nr → after r = addRoundKey w nb r (mixColumns (shiftRows (subBytes (after (r - 1)))))) →
      cipher w nb nr block = storeState (addRoundKey w nb nr (shiftRows (subBytes (after (nr - 1)))))) ∧
  (∀ (w : List Word) (nb nr : Nat) (block : List Byte) (after : Nat → List Word), 1 ≤ nr →
    after nr = addRoundKey w nb nr (loadState block) →
    (∀ r, 1 ≤ r → r < nr →
      after r = invMixColumns (addRoundKey w nb r (invSubBytes (invShiftRows (after (r + 1)))))) →
      invCipher w nb nr block = storeState (addRoundKey w nb 0 (invSubBytes (invShiftRows (after 1))))) ∧
  cipher (keyExpansion (List.replicate 16 0) 4) 4 10 (List.replicate 16 0) =
    hexBytes 16 0x66e94bd4ef8a2c3b884cfa59ca342b2e ∧
  ∀ v ∈ blockVectors,
    cipher (keyExpansion v.key (v.blockSize / 4)) (v.blockSize / 4) v.rounds v.plaintext =
      hexBytes v.blockSize v.ciphertext ∧
    invCipher (keyExpansion v.key (v.blockSize / 4)) (v.blockSize / 4) v.rounds (hexBytes v.blockSize v.ciphertext) =
      v.plaintext

/-- R190: `ENCRYPTBLOCK` completes on a keyed engine with one block in `DIN`, and answers its cipher; unkeyed, it
raises `KeyNotInitialized`. -/
def Obligations.EncryptBlockAnswersTheCipher : Prop :=
  ∀ s : State,
    (s.keyInit = true → s.cur.din.length = s.blksize.toNat →
      exec .encryptBlock s = .next { s with responses := s.responses ++
        [⟨0, 0, cipher s.w (s.blksize.toNat / 4) s.rounds.toNat s.cur.din⟩] }) ∧
    (s.keyInit = false → exec .encryptBlock s = .next { s with responses := s.responses ++ [⟨4, 0, []⟩] })

/-- R191: `DECRYPTBLOCK`, as R190 with the inverse cipher. -/
def Obligations.DecryptBlockAnswersTheInverseCipher : Prop :=
  ∀ s : State,
    (s.keyInit = true → s.cur.din.length = s.blksize.toNat →
      exec .decryptBlock s = .next { s with responses := s.responses ++
        [⟨0, 0, invCipher s.w (s.blksize.toNat / 4) s.rounds.toNat s.cur.din⟩] }) ∧
    (s.keyInit = false → exec .decryptBlock s = .next { s with responses := s.responses ++ [⟨4, 0, []⟩] })

/-- R193 in commands: in a session of any of the nine size pairs, `ENCRYPTBLOCK` of `p` and then `DECRYPTBLOCK` of the
answer returns `p`; the registers stay. The other order is the sentence of R193 that the spec marks as derived. -/
def Obligations.DecryptBlockReturnsThePlaintext : Prop :=
  ∀ (s : State) (p : List Byte), s.Ready → p.length = s.blksize.toNat →
    (∃ c, Sys2Proof.core.run 2
      { s with inputs := [.command (callEncryptBlock p), .command (callDecryptBlock c)] } =
        .next { s with cur := callDecryptBlock c, inputs := [],
                       responses := s.responses ++ [⟨0, 0, c⟩, ⟨0, 0, p⟩] }) ∧
    (∃ c, Sys2Proof.core.run 2
      { s with inputs := [.command (callDecryptBlock p), .command (callEncryptBlock c)] } =
        .next { s with cur := callEncryptBlock c, inputs := [],
                       responses := s.responses ++ [⟨0, 0, c⟩, ⟨0, 0, p⟩] })

/-! ## The chaining controller -/

/-- R222: after the checks of R220 `ENCRYPT.ECB` completes and enciphers each block on its own; no register
changes. -/
def Obligations.EncryptEcbEnciphersEachBlock : Prop :=
  ∀ s : State, s.ChecksFirst .encryptEcb ∧ ∀ n bs : Nat, s.Ready → s.cur.len.toNat = n → s.blksize.toNat = bs → n % bs = 0 →
    s.cur.din.length = n →
      ∃ out, exec .encryptEcb s = .next { s with responses := s.responses ++ [⟨0, 0, out⟩] } ∧
        out.length = n ∧
        ∀ k, k < n / bs → memRead out (k * bs) bs =
          cipher s.w (bs / 4) s.rounds.toNat (memRead s.cur.din (k * bs) bs)

/-- R225: after the checks of R220 `DECRYPT.ECB` completes and deciphers each block on its own; no register
changes. -/
def Obligations.DecryptEcbDeciphersEachBlock : Prop :=
  ∀ s : State, s.ChecksFirst .decryptEcb ∧ ∀ n bs : Nat, s.Ready → s.cur.len.toNat = n → s.blksize.toNat = bs → n % bs = 0 →
    s.cur.din.length = n →
      ∃ out, exec .decryptEcb s = .next { s with responses := s.responses ++ [⟨0, 0, out⟩] } ∧
        out.length = n ∧
        ∀ k, k < n / bs → memRead out (k * bs) bs =
          invCipher s.w (bs / 4) s.rounds.toNat (memRead s.cur.din (k * bs) bs)

/-- R223: after the checks of R220 `ENCRYPT.CBC` completes; output block `k` is the cipher of the input block xor the output block before it
(the Chain Register for the first), and `CHAIN` ends as the last output block, unchanged when `n = 0`. -/
def Obligations.EncryptCbcChainsCiphertextBlocks : Prop :=
  ∀ s : State, s.ChecksFirst .encryptCbc ∧ ∀ n bs : Nat, s.Ready → s.cur.len.toNat = n → s.blksize.toNat = bs → n % bs = 0 →
    s.cur.din.length = n →
      ∃ out, exec .encryptCbc s = .next { s with
          chain := if n = 0 then s.chain else memRead out (n - bs) bs
          responses := s.responses ++ [⟨0, 0, out⟩] } ∧
        out.length = n ∧
        ∀ k, k < n / bs → memRead out (k * bs) bs = cipher s.w (bs / 4) s.rounds.toNat
          (bytesXor (memRead s.cur.din (k * bs) bs)
            (if k = 0 then s.chain else memRead out ((k - 1) * bs) bs))

/-- R224: after the checks of R220 `ENCRYPT.CFB` completes; output block `k` is the cipher of the feedback (the output block before it, the
Chain Register for the first) xor the input block, and `CHAIN` ends as the last output block. -/
def Obligations.EncryptCfbFeedsBackCiphertextBlocks : Prop :=
  ∀ s : State, s.ChecksFirst .encryptCfb ∧ ∀ n bs : Nat, s.Ready → s.cur.len.toNat = n → s.blksize.toNat = bs → n % bs = 0 →
    s.cur.din.length = n →
      ∃ out, exec .encryptCfb s = .next { s with
          chain := if n = 0 then s.chain else memRead out (n - bs) bs
          responses := s.responses ++ [⟨0, 0, out⟩] } ∧
        out.length = n ∧
        ∀ k, k < n / bs → memRead out (k * bs) bs = bytesXor
          (cipher s.w (bs / 4) s.rounds.toNat (if k = 0 then s.chain else memRead out ((k - 1) * bs) bs))
          (memRead s.cur.din (k * bs) bs)

/-- R226: after the checks of R220 `DECRYPT.CBC` completes; output block `k` is the inverse cipher of the input block xor the input block
before it (the Chain Register for the first), and `CHAIN` ends as the last input block, not the plaintext. -/
def Obligations.DecryptCbcChainsConsumedBlocks : Prop :=
  ∀ s : State, s.ChecksFirst .decryptCbc ∧ ∀ n bs : Nat, s.Ready → s.cur.len.toNat = n → s.blksize.toNat = bs → n % bs = 0 →
    s.cur.din.length = n →
      ∃ out, exec .decryptCbc s = .next { s with
          chain := if n = 0 then s.chain else memRead s.cur.din (n - bs) bs
          responses := s.responses ++ [⟨0, 0, out⟩] } ∧
        out.length = n ∧
        ∀ k, k < n / bs → memRead out (k * bs) bs = bytesXor
          (invCipher s.w (bs / 4) s.rounds.toNat (memRead s.cur.din (k * bs) bs))
          (if k = 0 then s.chain else memRead s.cur.din ((k - 1) * bs) bs)

/-- R227: after the checks of R220 `DECRYPT.CFB` completes; output block `k` is the FORWARD cipher of the feedback (the input block before
it, the Chain Register for the first) xor the input block, and `CHAIN` ends as the last input block. -/
def Obligations.DecryptCfbUsesTheForwardCipher : Prop :=
  ∀ s : State, s.ChecksFirst .decryptCfb ∧ ∀ n bs : Nat, s.Ready → s.cur.len.toNat = n → s.blksize.toNat = bs → n % bs = 0 →
    s.cur.din.length = n →
      ∃ out, exec .decryptCfb s = .next { s with
          chain := if n = 0 then s.chain else memRead s.cur.din (n - bs) bs
          responses := s.responses ++ [⟨0, 0, out⟩] } ∧
        out.length = n ∧
        ∀ k, k < n / bs → memRead out (k * bs) bs = bytesXor
          (cipher s.w (bs / 4) s.rounds.toNat (if k = 0 then s.chain else memRead s.cur.din ((k - 1) * bs) bs))
          (memRead s.cur.din (k * bs) bs)

/-- R221: the empty buffer is accepted by all six multi-block commands and changes nothing, `CHAIN` included. -/
def Obligations.EmptyBufferIsAccepted : Prop :=
  ∀ (s : State) (i : Instr), s.keyInit = true → i.multiBlock = true → s.cur.len = 0 → s.cur.din = [] →
    exec i s = .next { s with responses := s.responses ++ [⟨0, 0, []⟩] }

/-- R228: `RESETCHAIN` completes on a keyed engine and sets `CHAIN` back to the session's chain-init, nothing else;
unkeyed, it raises `KeyNotInitialized`. -/
def Obligations.ResetChainRestoresTheChainInit : Prop :=
  ∀ s : State,
    (s.keyInit = true → s.cur.din = [] →
      exec .resetChain s = .next { s with chain := s.chain0, responses := s.responses ++ [⟨0, 0, []⟩] }) ∧
    (s.keyInit = false → exec .resetChain s = .next { s with responses := s.responses ++ [⟨4, 0, []⟩] })

/-- R230, first form: encrypt in a mode, `RESETCHAIN`, decrypt the result in that mode: the buffer comes back,
provided `CHAIN` equalled `CHAIN0` before. -/
def Obligations.ChainedRoundTripWithReset : Prop :=
  ∀ (s : State) (m : Mode) (p : List Byte), s.Ready → s.chain = s.chain0 → p.length % s.blksize.toNat = 0 →
    p.length < 2 ^ 32 →
      ∃ c t, c.length = p.length ∧ Sys2Proof.core.run 3
        { s with inputs := [.command (callEncrypt p m), .command callResetChain, .command (callDecrypt c m)] } =
          .next t ∧ t.responses = s.responses ++ [⟨0, 0, c⟩, ⟨0, 0, []⟩, ⟨0, 0, p⟩]

/-- R230, general form: decryption returns the buffer whenever it starts from the `CHAIN` the encryption started
from, and leaves `CHAIN` as the encryption left it; for ECB it does so from any `CHAIN`. -/
def Obligations.DecryptionFromTheSameChainReturnsTheBuffer : Prop :=
  ∀ (s : State) (m : Mode) (p other : List Byte), s.Ready → p.length % s.blksize.toNat = 0 →
    p.length < 2 ^ 32 → (m ≠ .ecb → other = s.chain) →
      ∃ c t u, step { s with inputs := [.command (callEncrypt p m)] } = .next t ∧
        t.responses = s.responses ++ [⟨0, 0, c⟩] ∧
        step { s with chain := other, inputs := [.command (callDecrypt c m)] } = .next u ∧
        u.responses = s.responses ++ [⟨0, 0, p⟩] ∧ (m ≠ .ecb → u.chain = t.chain)

/-- R229: a buffer run through a chained command in two consecutive parts gives the same output and the same final
`CHAIN` as in one command. -/
def Obligations.SplittingABufferChangesNothing : Prop :=
  ∀ (s : State) (i : Instr) (d1 d2 : List Byte), s.Ready → i.chained = true →
    d1.length % s.blksize.toNat = 0 → d2.length % s.blksize.toNat = 0 → d1.length + d2.length < 2 ^ 32 →
      ∃ o1 o2 t u, o1.length = d1.length ∧
        Sys2Proof.core.run 2 { s with inputs :=
          [.command ⟨encode i, BitVec.ofNat 32 d1.length, d1⟩,
           .command ⟨encode i, BitVec.ofNat 32 d2.length, d2⟩] } = .next t ∧
        t.responses = s.responses ++ [⟨0, 0, o1⟩, ⟨0, 0, o2⟩] ∧
        step { s with inputs :=
          [.command ⟨encode i, BitVec.ofNat 32 (d1.length + d2.length), d1 ++ d2⟩] } = .next u ∧
        u.responses = s.responses ++ [⟨0, 0, o1 ++ o2⟩] ∧ u.chain = t.chain

/-- R231: after any commands of the session, `RESETCHAIN` and then an encryption answer what that encryption answers
on the fresh session, and leave the same `CHAIN`. -/
def Obligations.ResetChainIsolatesStreams : Prop :=
  ∀ (s t v : State) (between : List HostAction) (m : Mode) (a : List Byte),
    s.keyInit = true → s.chain = s.chain0 → (∀ x ∈ between, x.staysInSession = true) →
    Sys2Proof.core.run between.length { s with inputs := between } = .next t →
    step { s with inputs := [.command (callEncrypt a m)] } = .next v →
      ∃ u, Sys2Proof.core.run 2
          { t with inputs := [.command callResetChain, .command (callEncrypt a m)] } = .next u ∧
        u.responses.getLast? = v.responses.getLast? ∧ u.chain = v.chain

/-- R313: a chained decryption from a wrong `CHAIN` is no error; only the first output block differs, `CHAIN` ends
the same, and the first block is what the rules give from the wrong value. -/
def Obligations.WrongChainSpoilsOnlyTheFirstBlock : Prop :=
  ∀ (s : State) (wrong : List Byte) (n bs : Nat), s.Ready → s.cur.len.toNat = n → s.blksize.toNat = bs →
    n % bs = 0 → 0 < n → s.cur.din.length = n → wrong.length = bs →
      (∃ out out' last, exec .decryptCbc s = .next { s with chain := last, responses := s.responses ++ [⟨0, 0, out⟩] } ∧
        exec .decryptCbc { s with chain := wrong } =
          .next { s with chain := last, responses := s.responses ++ [⟨0, 0, out'⟩] } ∧
        out'.drop bs = out.drop bs ∧ last = memRead s.cur.din (n - bs) bs ∧
        out'.take bs = bytesXor (out.take bs) (bytesXor s.chain wrong)) ∧
      (∃ out out' last, exec .decryptCfb s = .next { s with chain := last, responses := s.responses ++ [⟨0, 0, out⟩] } ∧
        exec .decryptCfb { s with chain := wrong } =
          .next { s with chain := last, responses := s.responses ++ [⟨0, 0, out'⟩] } ∧
        out'.drop bs = out.drop bs ∧ last = memRead s.cur.din (n - bs) bs ∧
        out'.take bs = bytesXor (cipher s.w (bs / 4) s.rounds.toNat wrong) (s.cur.din.take bs))

/-! ## The accessors -/

/-- R260, R261, R262: in a session with an empty `DIN` each accessor completes and answers its register
zero-extended, changing nothing. Unkeyed, each raises `KeyNotInitialized`. That the round count is
`max(KEYLEN, BLKSIZE)/4 + 6` is the sentence of R262 that the spec marks as derived. -/
def Obligations.AccessorsAnswerTheSessionRegisters : Prop :=
  ∀ s : State,
    (s.Ready → s.cur.din = [] →
      exec .getKeyLength s = .next { s with responses := s.responses ++ [⟨0, s.keylen.setWidth 32, []⟩] } ∧
      exec .getBlockSize s = .next { s with responses := s.responses ++ [⟨0, s.blksize.setWidth 32, []⟩] } ∧
      exec .getRounds s = .next { s with responses := s.responses ++ [⟨0, s.rounds.setWidth 32, []⟩] } ∧
      SizeOk (s.keylen.setWidth 32).toNat ∧ SizeOk (s.blksize.setWidth 32).toNat ∧
      (s.rounds.setWidth 32).toNat = max s.keylen.toNat s.blksize.toNat / 4 + 6) ∧
    (s.keyInit = false → ∀ i, i = .getKeyLength ∨ i = .getBlockSize ∨ i = .getRounds →
      exec i s = .next { s with responses := s.responses ++ [⟨4, 0, []⟩] })

/-! ## The whole machine -/

/-- R35: the write map. Only `MAKEKEY` writes `KEY_INIT`, the sizes, `KEY`, `W` and `CHAIN0`; besides it only the
four chained commands (when `n > 0`) and `RESETCHAIN` write `CHAIN`. -/
def Obligations.CommandsWriteOnlyTheirRegisters : Prop :=
  ∀ (s t : State) (i : Instr), exec i s = .next t →
    t.cur = s.cur ∧ t.inputs = s.inputs ∧
    (i.isMakeKey = false →
      t.keyInit = s.keyInit ∧ t.keylen = s.keylen ∧ t.blksize = s.blksize ∧ t.rounds = s.rounds ∧
      t.key = s.key ∧ t.w = s.w ∧ t.chain0 = s.chain0) ∧
    (i.isMakeKey = false → ¬ (i.chained = true ∧ s.cur.len ≠ 0) → i ≠ .resetChain → t.chain = s.chain)

/-- R194 and R316: the block commands, the ECB commands and the accessors neither read nor write `CHAIN` or
`CHAIN0`: with other values there they answer the same and leave those values. -/
def Obligations.BlockEcbAndAccessorsIgnoreTheChain : Prop :=
  ∀ (s t : State) (i : Instr) (c c0 : List Byte),
    i.isMakeKey = false → i.chained = false → i ≠ .resetChain → exec i s = .next t →
      exec i { s with chain := c, chain0 := c0 } = .next { t with chain := c, chain0 := c0 }

/-- R62 and R280: a command that moves no chain, repeated with the same operands, gives the same response again and
changes nothing more. Only the four chained commands can move the chain, and only they carry a premise: it holds of the
empty buffer and of every one answered with an error. -/
def Obligations.UnchainedCommandsRepeat : Prop :=
  ∀ (s t : State) (i : Instr), exec i s = .next t →
    ∃ r, t.responses = s.responses ++ [r] ∧
      (i.chained = true → s.cur.len = 0 → t.chain = s.chain) ∧ (r.status ≠ 0 → t.chain = s.chain) ∧
      ((i.chained = true → t.chain = s.chain) → exec i t = .next { t with responses := t.responses ++ [r] })

/-- R25: nothing reads `KEY` after the expansion: with another value there, every step goes the same way, and no
response and no other register shows it. -/
def Obligations.KeyMaterialIsNotReadAfterExpansion : Prop :=
  ∀ (s t : State) (other : List Byte), step s = .next t →
    ∃ t', step { s with key := other } = .next t' ∧ { t' with key := t.key } = t

/-- R21, R283: no command clears `KEY_INIT`, only the host's reset does; and only a `MAKEKEY` with supported sizes
sets it. -/
def Obligations.KeyInitChangesOnlyByMakeKeyAndReset : Prop :=
  ∀ s t : State, step s = .next t →
    (s.keyInit = true → t.keyInit = false → ∃ rest, s.inputs = .reset :: rest) ∧
    (s.keyInit = false → t.keyInit = true → ∃ tr rest z keyLength blockSize,
      s.inputs = .command tr :: rest ∧ decode tr.cmd = .legal (.makeKey z keyLength blockSize) ∧
      SizeOk keyLength ∧ SizeOk blockSize)

/-- The session invariant of R34 holds after reset, where `KEY_INIT = 0`. -/
def Obligations.SessionInvariantHoldsAtReset : Prop :=
  State.reset.Inv ∧ State.reset.keyInit = false

/-- R34: every step, whatever the host does, keeps the session invariant: sizes in their sets, the round count of
the pair, `W` the expansion of `KEY`, and the lengths of `KEY`, `CHAIN0` and `CHAIN`. -/
def Obligations.EveryStepKeepsTheSessionInvariant : Prop :=
  ∀ s t : State, s.Inv → step s = .next t → t.Inv

/-- R36 and 93_implementation_defined.md U5: what the registers hold while `KEY_INIT = 0` is never observable: two
unkeyed engines with the same host see the same responses for ever, so no statement and no response rests on the
reset values the model names (log entries 1 and 2). -/
def Obligations.UnkeyedRegistersAreNeverObservable : Prop :=
  ∀ (s s' t : State) (k : Nat), s.keyInit = false → s'.keyInit = false → s'.inputs = s.inputs →
    s'.responses = s.responses → Sys2Proof.core.run k s = .next t →
      ∃ t' : State, Sys2Proof.core.run k s' = .next t' ∧ t'.responses = t.responses ∧ t'.keyInit = t.keyInit ∧
        (t.keyInit = true → t' = t)

/-- R285 ("each instance has its own state ..., its own port and its own errors"), with R6 and R65: what an instance
answers and becomes is fixed by its eight registers and its own host's actions.
First, over any number of steps: with other responses returned before and another transaction left in the latch, the
same actions give the same new responses and the same registers. Second, one command: it goes the same way, refusals
included, whatever the host will present after it. Both are about `step` and `exec`: a command that read an earlier
response, a stale operand or a later command would falsify them.
Last, for the row of instances, one of which steps at a time, which is the model's choice (log entry 18): a step of one
leaves the others as they were, and steps of two commute. That part alone speaks of the wrapper `stepInstance`. -/
def Obligations.InstancesDoNotInterfere : Prop :=
  (∀ (s t : State) (k : Nat) (stale : Transaction) (past : List Response), Sys2Proof.core.run k s = .next t →
    ∃ (latch : Transaction) (new : List Response), t.responses = s.responses ++ new ∧
      Sys2Proof.core.run k { s with cur := stale, responses := past } =
        .next { t with cur := latch, responses := past ++ new }) ∧
  (∀ (s : State) (tr stale : Transaction) (rest later : List HostAction) (past : List Response),
    s.inputs = .command tr :: rest →
      (∀ t, step s = .next t → ∃ r, t.responses = s.responses ++ [r] ∧
        step { s with cur := stale, inputs := .command tr :: later, responses := past } =
          .next { t with inputs := later, responses := past ++ [r] }) ∧
      (∀ why, step s = .refused why →
        step { s with cur := stale, inputs := .command tr :: later, responses := past } = .refused why)) ∧
  (∀ (all one both : List State) (j k : Nat), j ≠ k → stepInstance j all = .next one →
    one[k]? = all[k]? ∧
    (stepInstance k one = .next both →
      ∃ other, stepInstance k all = .next other ∧ stepInstance j other = .next both))
end

