-- ==== Sys2Proof/Laws/Words.lean ====
section
/-!
SUPPORT. Lengths and inverses of the byte and word layouts, of the round steps and of the two block functions.
-/

namespace Sys2Proof.Machine

@[simp] theorem bytesXor_length (a b : List Byte) :
    (bytesXor a b).length = min a.length b.length := by simp [bytesXor]

@[simp] theorem memRead_length (din : List Byte) (addr n : Nat) :
    (memRead din addr n).length = min n (din.length - addr) := by simp [memRead]

@[simp] theorem zeros_length (n : Nat) : (zeros n).length = n := by simp [zeros]

/-- A read of the whole sequence is the sequence (R50). -/
theorem memRead_whole {din : List Byte} {n : Nat} (h : din.length = n) : memRead din 0 n = din := by
  subst h
  simp [memRead]

@[simp] theorem wordsToBytes_nil : wordsToBytes [] = [] := rfl

@[simp] theorem wordsToBytes_cons (v : Word) (ws : List Word) :
    wordsToBytes (v :: ws) = v.b0 :: v.b1 :: v.b2 :: v.b3 :: wordsToBytes ws := rfl

@[simp] theorem wordsToBytes_length (ws : List Word) : (wordsToBytes ws).length = 4 * ws.length := by
  induction ws with
  | nil => rfl
  | cons v ws ih => simp [ih]; omega

/-- Words written as bytes and read back are the same words (R53, R55). -/
@[simp] theorem bytesToWords_wordsToBytes (ws : List Word) : bytesToWords (wordsToBytes ws) = ws := by
  induction ws with
  | nil => rfl
  | cons v ws ih => simp [bytesToWords, ih]

theorem bytesToWords_length (b : List Byte) : (bytesToWords b).length = b.length / 4 := by
  induction b using bytesToWords.induct with
  | case1 b0 b1 b2 b3 rest ih => simp [bytesToWords, ih]; omega
  | case2 b h =>
    rcases b with _ | ⟨b0, _ | ⟨b1, _ | ⟨b2, _ | ⟨b3, rest⟩⟩⟩⟩
    all_goals first | exact absurd rfl (h _ _ _ _ _) | simp [bytesToWords]

theorem subkey_length {w : List Word} {nb r : Nat} (h : (r + 1) * nb ≤ w.length) :
    (subkey w nb r).length = nb := by
  rw [Nat.add_mul] at h
  simp [subkey]; omega

@[simp] theorem subBytes_length (st : List Word) : (subBytes st).length = st.length := by simp [subBytes]

@[simp] theorem invSubBytes_length (st : List Word) : (invSubBytes st).length = st.length := by
  simp [invSubBytes]

@[simp] theorem shiftRows_length (st : List Word) : (shiftRows st).length = st.length := by simp [shiftRows]

@[simp] theorem invShiftRows_length (st : List Word) : (invShiftRows st).length = st.length := by
  simp [invShiftRows]

@[simp] theorem mixColumns_length (st : List Word) : (mixColumns st).length = st.length := by
  simp [mixColumns]

@[simp] theorem invMixColumns_length (st : List Word) : (invMixColumns st).length = st.length := by
  simp [invMixColumns]

theorem addRoundKey_length {w : List Word} {nb r : Nat} {st : List Word} (hw : (r + 1) * nb ≤ w.length)
    (hst : st.length = nb) : (addRoundKey w nb r st).length = nb := by
  simp [addRoundKey, subkey_length hw, hst]

/-- A fold of steps that keep a length keeps it. -/
theorem foldl_length {f : List Word → Nat → List Word} {nb : Nat} :
    ∀ (rs : List Nat) (st : List Word), (∀ r ∈ rs, ∀ st, st.length = nb → (f st r).length = nb) →
      st.length = nb → (rs.foldl f st).length = nb
  | [], _, _, h => h
  | r :: rs, st, hf, h => by
    simp only [List.foldl_cons]
    exact foldl_length rs _ (fun r' hr' => hf r' (List.mem_cons_of_mem _ hr'))
      (hf r List.mem_cons_self st h)

/-- The indices of the inner rounds (R188). -/
theorem mem_innerRounds {nr r : Nat} : r ∈ innerRounds nr ↔ 1 ≤ r ∧ r < nr := by
  simp [innerRounds]; omega

theorem subkeys_fit {w : List Word} {nb nr r : Nat} (hw : w.length = nb * (nr + 1)) (hr : r ≤ nr) :
    (r + 1) * nb ≤ w.length := by
  rw [hw, Nat.mul_comm nb]
  exact Nat.mul_le_mul_right nb (by omega)

/-- `Cipher` gives a block of the block's length (R188). -/
theorem cipher_length {w : List Word} {nb nr : Nat} {block : List Byte} (hw : w.length = nb * (nr + 1))
    (hb : block.length = 4 * nb) : (cipher w nb nr block).length = 4 * nb := by
  have h0 : (addRoundKey w nb 0 (loadState block)).length = nb :=
    addRoundKey_length (subkeys_fit hw (by omega)) (by simp [loadState, bytesToWords_length, hb])
  have h1 := foldl_length (f := cipherRound w nb) (innerRounds nr) _ (fun r hr st h =>
    addRoundKey_length (subkeys_fit hw (mem_innerRounds.1 hr).2.le) (by simpa using h)) h0
  simp only [cipher, storeState, wordsToBytes_length]
  rw [addRoundKey_length (subkeys_fit hw le_rfl) (by simpa using h1)]

/-- `InvCipher` gives a block of the block's length (R189). -/
theorem invCipher_length {w : List Word} {nb nr : Nat} {block : List Byte} (hw : w.length = nb * (nr + 1))
    (hb : block.length = 4 * nb) : (invCipher w nb nr block).length = 4 * nb := by
  have h0 : (addRoundKey w nb nr (loadState block)).length = nb :=
    addRoundKey_length (subkeys_fit hw le_rfl) (by simp [loadState, bytesToWords_length, hb])
  have h1 := foldl_length (f := invCipherRound w nb) (innerRounds nr).reverse _ (fun r hr st h => by
    simpa [invCipherRound] using addRoundKey_length
      (subkeys_fit hw (mem_innerRounds.1 (List.mem_reverse.1 hr)).2.le) (by simpa using h)) h0
  simp only [invCipher, storeState, wordsToBytes_length]
  rw [addRoundKey_length (subkeys_fit hw (Nat.zero_le _)) (by simpa using h1)]

theorem expandLoop_length (nk : Nat) : ∀ (fuel i : Nat) (acc : List Word),
    (expandLoop nk fuel i acc).length = acc.length + fuel
  | 0, _, acc => rfl
  | fuel + 1, i, acc => by
    rw [expandLoop, expandLoop_length nk fuel]
    simp; omega

/-- The expansion has `NW` words (R152). -/
theorem keyExpansion_length {key : List Byte} {nb : Nat} (hk : key.length / 4 ≤ nb * (max (key.length / 4) nb + 6 + 1)) :
    (keyExpansion key nb).length = nb * (max (key.length / 4) nb + 6 + 1) := by
  simp only [keyExpansion, List.length_reverse, expandLoop_length, bytesToWords_length, scheduleLength]
  omega

end Sys2Proof.Machine
end

