-- ==== Sys2Proof/Laws/Chain.lean ====
section
/-!
SUPPORT. The loop of the chained commands (R223, R224, R226, R227) and the blocks of a buffer (R56).
-/

namespace Sys2Proof.Machine

@[simp] theorem chainLoop_nil (f : ChainStep) (c : List Byte) : chainLoop f [] c = ([], c) := rfl

@[simp] theorem chainLoop_cons (f : ChainStep) (b : List Byte) (bs : List (List Byte)) (c : List Byte) :
    chainLoop f (b :: bs) c =
      ((f b c).1 :: (chainLoop f bs (f b c).2).1, (chainLoop f bs (f b c).2).2) := rfl

/-- One output block per input block (R60). -/
@[simp] theorem chainLoop_length (f : ChainStep) : ∀ (bs : List (List Byte)) (c : List Byte),
    (chainLoop f bs c).1.length = bs.length
  | [], _ => rfl
  | b :: bs, c => by simp [chainLoop_length f bs]

/-- The loop over two runs of blocks is the loop over the first and then over the second, from the `CHAIN` the
first left (R66). -/
theorem chainLoop_append (f : ChainStep) : ∀ (as bs : List (List Byte)) (c : List Byte),
    chainLoop f (as ++ bs) c =
      ((chainLoop f as c).1 ++ (chainLoop f bs (chainLoop f as c).2).1, (chainLoop f bs (chainLoop f as c).2).2)
  | [], bs, c => rfl
  | a :: as, bs, c => by simp [chainLoop_append f as bs]

/-- An induction over the loop, once: a property of the Chain Register that one block keeps, the loop keeps, and
every output block has what one block gives. -/
theorem chainLoop_preserves {f : ChainStep} {P Q : List Byte → Prop} :
    ∀ (bs : List (List Byte)) (c : List Byte),
      (∀ b ∈ bs, ∀ c, P c → Q (f b c).1 ∧ P (f b c).2) → P c →
        (∀ o ∈ (chainLoop f bs c).1, Q o) ∧ P (chainLoop f bs c).2
  | [], _, _, hc => ⟨by simp, hc⟩
  | b :: bs, c, hf, hc => by
    have hb := hf b List.mem_cons_self c hc
    have ih := chainLoop_preserves bs (f b c).2 (fun b' hb' => hf b' (List.mem_cons_of_mem _ hb')) hb.2
    refine ⟨fun o ho => ?_, ih.2⟩
    rcases List.mem_cons.1 ho with rfl | ho
    · exact hb.1
    · exact ih.1 o ho

/-- Block `k` of the concatenation of blocks of one length is block `k` (R56). -/
theorem memRead_flatten {m : Nat} : ∀ (bs : List (List Byte)) (k : Nat), (∀ b ∈ bs, b.length = m) →
    (hk : k < bs.length) → memRead bs.flatten (k * m) m = bs[k]
  | [], _, _, hk => absurd hk (by simp)
  | b :: bs, 0, h, _ => by
    have hb : b.length = m := h b List.mem_cons_self
    simp [memRead, hb]
  | b :: bs, k + 1, h, hk => by
    have hb : b.length = m := h b List.mem_cons_self
    have ih := memRead_flatten bs k (fun b' hb' => h b' (List.mem_cons_of_mem _ hb')) (by simpa using hk)
    have e : (k + 1) * m = b.length + k * m := by rw [hb, Nat.add_mul, Nat.one_mul, Nat.add_comm]
    have e2 : b.drop (b.length + k * m) = [] := List.drop_eq_nil_of_le (by omega)
    simpa [memRead, e, List.drop_append, e2] using ih

/-- The length of the concatenation of blocks of one length. -/
theorem flatten_length {m : Nat} (bs : List (List Byte)) (h : ∀ b ∈ bs, b.length = m) :
    bs.flatten.length = bs.length * m := by
  induction bs with
  | nil => simp
  | cons b bs ih =>
    simp [ih (fun b' hb' => h b' (List.mem_cons_of_mem _ hb')), h b List.mem_cons_self, Nat.add_mul]
    omega

/-- Every input block has the session's block length (R56, R60). -/
theorem inputBlocks_length {s : State} (hl : s.cur.din.length = s.n) :
    ∀ b ∈ s.inputBlocks, b.length = s.bs := by
  intro b hb
  obtain ⟨k, hk, rfl⟩ := List.mem_map.1 hb
  have hk : k < s.n / s.bs := List.mem_range.1 hk
  have h1 : (k + 1) * s.bs ≤ s.n := le_trans (Nat.mul_le_mul_right _ hk) (Nat.div_mul_le_self _ _)
  rw [Nat.add_mul] at h1
  simp [hl]
  omega

end Sys2Proof.Machine
end

