-- ==== Sys2Proof/Laws/Encoding.lean ====
section
/-!
SUPPORT. The command format of R81 read bit by bit and as a number.
-/

namespace Sys2Proof

/-- Bit `i` of a command word (R81). -/
theorem commandWord_getLsbD (op : BitVec 4) (mode : BitVec 2) (z : Bool) (kl bs : BitVec 8) (i : Nat) :
    (commandWord op mode z kl bs).getLsbD i =
      if i < 4 then op.getLsbD i else if i < 6 then mode.getLsbD (i - 4) else if i < 7 then z
      else if i < 8 then false else if i < 16 then kl.getLsbD (i - 8) else bs.getLsbD (i - 16) := by
  simp only [commandWord, BitVec.getLsbD_append]
  split_ifs <;> first | (exfalso; omega) | simp [Nat.sub_sub]
  · have : i = 6 := by omega
    simp [this]
  · exact BitVec.getLsbD_of_ge bs _ (by omega)

/-- A command word as a number (R81). -/
theorem commandWord_toNat (op : BitVec 4) (mode : BitVec 2) (z : Bool) (kl bs : BitVec 8) :
    (commandWord op mode z kl bs).toNat =
      op.toNat + 16 * mode.toNat + 64 * z.toNat + 256 * kl.toNat + 65536 * bs.toNat := by
  have := op.isLt; have := mode.isLt; have := kl.isLt; have := z.toNat_lt
  simp only [commandWord, BitVec.toNat_append]
  rw [← Nat.shiftLeft_add_eq_or_of_lt (by omega), ← Nat.shiftLeft_add_eq_or_of_lt (by simp; omega),
    ← Nat.shiftLeft_add_eq_or_of_lt (by simp; omega), ← Nat.shiftLeft_add_eq_or_of_lt (by simp),
    ← Nat.shiftLeft_add_eq_or_of_lt (by omega), ← Nat.shiftLeft_add_eq_or_of_lt (by omega)]
  simp [Nat.shiftLeft_eq]
  omega

end Sys2Proof
end

