-- ==== Sys2Proof/Laws/State.lean ====
section
/-!
SUPPORT. One lemma per field per state update, each true by `rfl`, so that no later proof unfolds a record update.
-/

namespace Sys2Proof.Machine

/-! `State.respond`: a response leaves the port, no register changes (R80). -/

@[simp] theorem State.respond_keyInit (s : State) (r : Response) : (s.respond r).keyInit = s.keyInit := rfl
@[simp] theorem State.respond_keylen (s : State) (r : Response) : (s.respond r).keylen = s.keylen := rfl
@[simp] theorem State.respond_blksize (s : State) (r : Response) : (s.respond r).blksize = s.blksize := rfl
@[simp] theorem State.respond_rounds (s : State) (r : Response) : (s.respond r).rounds = s.rounds := rfl
@[simp] theorem State.respond_key (s : State) (r : Response) : (s.respond r).key = s.key := rfl
@[simp] theorem State.respond_w (s : State) (r : Response) : (s.respond r).w = s.w := rfl
@[simp] theorem State.respond_chain0 (s : State) (r : Response) : (s.respond r).chain0 = s.chain0 := rfl
@[simp] theorem State.respond_chain (s : State) (r : Response) : (s.respond r).chain = s.chain := rfl
@[simp] theorem State.respond_cur (s : State) (r : Response) : (s.respond r).cur = s.cur := rfl
@[simp] theorem State.respond_inputs (s : State) (r : Response) : (s.respond r).inputs = s.inputs := rfl
@[simp] theorem State.respond_responses (s : State) (r : Response) : (s.respond r).responses = s.responses ++ [r] := rfl

/-! `State.accept`: the port takes the next transaction (R69). -/

@[simp] theorem State.accept_keyInit (s : State) (t : Transaction) (rest : List HostAction) : (s.accept t rest).keyInit = s.keyInit := rfl
@[simp] theorem State.accept_keylen (s : State) (t : Transaction) (rest : List HostAction) : (s.accept t rest).keylen = s.keylen := rfl
@[simp] theorem State.accept_blksize (s : State) (t : Transaction) (rest : List HostAction) : (s.accept t rest).blksize = s.blksize := rfl
@[simp] theorem State.accept_rounds (s : State) (t : Transaction) (rest : List HostAction) : (s.accept t rest).rounds = s.rounds := rfl
@[simp] theorem State.accept_key (s : State) (t : Transaction) (rest : List HostAction) : (s.accept t rest).key = s.key := rfl
@[simp] theorem State.accept_w (s : State) (t : Transaction) (rest : List HostAction) : (s.accept t rest).w = s.w := rfl
@[simp] theorem State.accept_chain0 (s : State) (t : Transaction) (rest : List HostAction) : (s.accept t rest).chain0 = s.chain0 := rfl
@[simp] theorem State.accept_chain (s : State) (t : Transaction) (rest : List HostAction) : (s.accept t rest).chain = s.chain := rfl
@[simp] theorem State.accept_cur (s : State) (t : Transaction) (rest : List HostAction) : (s.accept t rest).cur = t := rfl
@[simp] theorem State.accept_inputs (s : State) (t : Transaction) (rest : List HostAction) : (s.accept t rest).inputs = rest := rfl
@[simp] theorem State.accept_responses (s : State) (t : Transaction) (rest : List HostAction) : (s.accept t rest).responses = s.responses := rfl

/-! `State.hostReset`: a fresh instance at the same port (R310). -/

@[simp] theorem State.hostReset_keyInit (s : State) (rest : List HostAction) : (s.hostReset rest).keyInit = State.reset.keyInit := rfl
@[simp] theorem State.hostReset_keylen (s : State) (rest : List HostAction) : (s.hostReset rest).keylen = State.reset.keylen := rfl
@[simp] theorem State.hostReset_blksize (s : State) (rest : List HostAction) : (s.hostReset rest).blksize = State.reset.blksize := rfl
@[simp] theorem State.hostReset_rounds (s : State) (rest : List HostAction) : (s.hostReset rest).rounds = State.reset.rounds := rfl
@[simp] theorem State.hostReset_key (s : State) (rest : List HostAction) : (s.hostReset rest).key = State.reset.key := rfl
@[simp] theorem State.hostReset_w (s : State) (rest : List HostAction) : (s.hostReset rest).w = State.reset.w := rfl
@[simp] theorem State.hostReset_chain0 (s : State) (rest : List HostAction) : (s.hostReset rest).chain0 = State.reset.chain0 := rfl
@[simp] theorem State.hostReset_chain (s : State) (rest : List HostAction) : (s.hostReset rest).chain = State.reset.chain := rfl
@[simp] theorem State.hostReset_cur (s : State) (rest : List HostAction) : (s.hostReset rest).cur = State.reset.cur := rfl
@[simp] theorem State.hostReset_inputs (s : State) (rest : List HostAction) : (s.hostReset rest).inputs = rest := rfl
@[simp] theorem State.hostReset_responses (s : State) (rest : List HostAction) : (s.hostReset rest).responses = s.responses := rfl

/-! `State.establish`: the writes of a successful `MAKEKEY` (R158). -/

@[simp] theorem State.establish_keyInit (s : State) (kl bs : Nat) (key ci : List Byte) : (s.establish kl bs key ci).keyInit = true := rfl
@[simp] theorem State.establish_keylen (s : State) (kl bs : Nat) (key ci : List Byte) : (s.establish kl bs key ci).keylen = BitVec.ofNat 8 kl := rfl
@[simp] theorem State.establish_blksize (s : State) (kl bs : Nat) (key ci : List Byte) : (s.establish kl bs key ci).blksize = BitVec.ofNat 8 bs := rfl
@[simp] theorem State.establish_rounds (s : State) (kl bs : Nat) (key ci : List Byte) : (s.establish kl bs key ci).rounds = BitVec.ofNat 8 (roundCount kl bs) := rfl
@[simp] theorem State.establish_key (s : State) (kl bs : Nat) (key ci : List Byte) : (s.establish kl bs key ci).key = key := rfl
@[simp] theorem State.establish_w (s : State) (kl bs : Nat) (key ci : List Byte) : (s.establish kl bs key ci).w = keyExpansion key (bs / 4) := rfl
@[simp] theorem State.establish_chain0 (s : State) (kl bs : Nat) (key ci : List Byte) : (s.establish kl bs key ci).chain0 = ci := rfl
@[simp] theorem State.establish_chain (s : State) (kl bs : Nat) (key ci : List Byte) : (s.establish kl bs key ci).chain = ci := rfl
@[simp] theorem State.establish_cur (s : State) (kl bs : Nat) (key ci : List Byte) : (s.establish kl bs key ci).cur = s.cur := rfl
@[simp] theorem State.establish_inputs (s : State) (kl bs : Nat) (key ci : List Byte) : (s.establish kl bs key ci).inputs = s.inputs := rfl
@[simp] theorem State.establish_responses (s : State) (kl bs : Nat) (key ci : List Byte) : (s.establish kl bs key ci).responses = s.responses := rfl

/-! The `CHAIN` update of the chained commands and of `RESETCHAIN` (R35). -/

theorem State.setChain_keyInit (s : State) (c : List Byte) : ({ s with chain := c }).keyInit = s.keyInit := rfl
theorem State.setChain_keylen (s : State) (c : List Byte) : ({ s with chain := c }).keylen = s.keylen := rfl
theorem State.setChain_blksize (s : State) (c : List Byte) : ({ s with chain := c }).blksize = s.blksize := rfl
theorem State.setChain_rounds (s : State) (c : List Byte) : ({ s with chain := c }).rounds = s.rounds := rfl
theorem State.setChain_key (s : State) (c : List Byte) : ({ s with chain := c }).key = s.key := rfl
theorem State.setChain_w (s : State) (c : List Byte) : ({ s with chain := c }).w = s.w := rfl
theorem State.setChain_chain0 (s : State) (c : List Byte) : ({ s with chain := c }).chain0 = s.chain0 := rfl
theorem State.setChain_chain (s : State) (c : List Byte) : ({ s with chain := c }).chain = c := rfl
theorem State.setChain_cur (s : State) (c : List Byte) : ({ s with chain := c }).cur = s.cur := rfl
theorem State.setChain_inputs (s : State) (c : List Byte) : ({ s with chain := c }).inputs = s.inputs := rfl
theorem State.setChain_responses (s : State) (c : List Byte) : ({ s with chain := c }).responses = s.responses := rfl

/-! The derived quantities of the session depend on the size registers alone. -/

@[simp] theorem State.respond_bs (s : State) (r : Response) : (s.respond r).bs = s.bs := rfl
@[simp] theorem State.respond_nb (s : State) (r : Response) : (s.respond r).nb = s.nb := rfl
@[simp] theorem State.respond_nr (s : State) (r : Response) : (s.respond r).nr = s.nr := rfl
@[simp] theorem State.respond_n (s : State) (r : Response) : (s.respond r).n = s.n := rfl
@[simp] theorem State.accept_bs (s : State) (t : Transaction) (rest : List HostAction) :
    (s.accept t rest).bs = s.bs := rfl
@[simp] theorem State.accept_nb (s : State) (t : Transaction) (rest : List HostAction) :
    (s.accept t rest).nb = s.nb := rfl
@[simp] theorem State.accept_nr (s : State) (t : Transaction) (rest : List HostAction) :
    (s.accept t rest).nr = s.nr := rfl

/-- The cipher of a session reads `W`, `BLKSIZE` and `ROUNDS` only (R188). -/
theorem State.cipher_eq_of_registers {s t : State} (hw : s.w = t.w) (hb : s.blksize = t.blksize)
    (hr : s.rounds = t.rounds) : s.cipher = t.cipher := by
  funext b
  simp [State.cipher, State.nb, State.nr, State.bs, hw, hb, hr]

/-- The inverse cipher of a session reads `W`, `BLKSIZE` and `ROUNDS` only (R189). -/
theorem State.invCipher_eq_of_registers {s t : State} (hw : s.w = t.w) (hb : s.blksize = t.blksize)
    (hr : s.rounds = t.rounds) : s.invCipher = t.invCipher := by
  funext b
  simp [State.invCipher, State.nb, State.nr, State.bs, hw, hb, hr]

end Sys2Proof.Machine
end

