-- ==== Sys2Proof/Laws/Ops.lean ====
section
/-!
SUPPORT. One lemma per shared operation, saying everything it can do; later proofs cite these.
-/

namespace Sys2Proof.Machine

/-- `raise` always answers a next state (R279). -/
theorem raise_eq_next_iff {e : Status} {s t : State} :
    raise e s = .next t ↔ t = s.respond (errorResponse e) := by
  simp [raise, eq_comm]

/-- `succeed` always answers a next state. -/
theorem succeed_eq_next_iff {v : BitVec 32} {d : List Byte} {s t : State} :
    succeed v d s = .next t ↔ t = s.respond (okResponse v d) := by
  simp [succeed, eq_comm]

/-- The only fault is none: no outcome is a fault (R270, R280). -/
theorem not_fault (r : Result) (f : Fault) : r ≠ .fault f := by cases f

theorem withKey_of_keyed {s : State} (h : s.keyInit = true) (k : Result) : withKey s k = k := by
  simp [withKey, State.keyed, h]

theorem withKey_of_unkeyed {s : State} (h : s.keyInit = false) (k : Result) :
    withKey s k = raise .keyNotInitialized s := by
  simp [withKey, State.keyed, h]

/-- Everything `withKey` can do. -/
theorem withKey_eq_next {s t : State} {k : Result} (h : withKey s k = .next t) :
    (s.keyInit = true ∧ k = .next t) ∨
    (s.keyInit = false ∧ t = s.respond (errorResponse .keyNotInitialized)) := by
  cases hk : s.keyInit
  · exact .inr ⟨rfl, raise_eq_next_iff.1 (withKey_of_unkeyed hk k ▸ h)⟩
  · exact .inl ⟨rfl, withKey_of_keyed hk k ▸ h⟩

theorem withWholeBlocks_of_aligned {s : State} (h : s.n % s.bs = 0) (k : Result) :
    withWholeBlocks s k = k := by
  simp [withWholeBlocks, h]

theorem withWholeBlocks_of_misaligned {s : State} (h : s.n % s.bs ≠ 0) (k : Result) :
    withWholeBlocks s k = raise .invalidInputLength s := by
  simp [withWholeBlocks, h]

/-- Everything `withWholeBlocks` can do. -/
theorem withWholeBlocks_eq_next {s t : State} {k : Result} (h : withWholeBlocks s k = .next t) :
    (s.n % s.bs = 0 ∧ k = .next t) ∨
    (s.n % s.bs ≠ 0 ∧ t = s.respond (errorResponse .invalidInputLength)) := by
  by_cases ha : s.n % s.bs = 0
  · exact .inl ⟨ha, withWholeBlocks_of_aligned ha k ▸ h⟩
  · exact .inr ⟨ha, raise_eq_next_iff.1 (withWholeBlocks_of_misaligned ha k ▸ h)⟩

theorem withDin_of_length {s : State} {m : Nat} (h : s.cur.din.length = m) (k : Result) :
    withDin s m k = k := by
  simp [withDin, h]

theorem withDin_of_wrong_length {s : State} {m : Nat} (h : s.cur.din.length ≠ m) (k : Result) :
    withDin s m k = .refused .malformedTransaction := by
  simp [withDin, h]

/-- `withDin` answers a next state only for a transaction of the right length (R68). -/
theorem withDin_eq_next {s t : State} {m : Nat} {k : Result} (h : withDin s m k = .next t) :
    s.cur.din.length = m ∧ k = .next t := by
  by_cases hl : s.cur.din.length = m
  · exact ⟨hl, withDin_of_length hl k ▸ h⟩
  · rw [withDin_of_wrong_length hl] at h; cases h

/-- Everything the common checks of the multi-block commands can do (R220, R68). -/
theorem withBuffer_eq_next {s t : State} {k : Result} (h : withBuffer s k = .next t) :
    (s.keyInit = true ∧ s.n % s.bs = 0 ∧ s.cur.din.length = s.n ∧ k = .next t) ∨
    (s.keyInit = false ∧ t = s.respond (errorResponse .keyNotInitialized)) ∨
    (s.keyInit = true ∧ s.n % s.bs ≠ 0 ∧ t = s.respond (errorResponse .invalidInputLength)) := by
  rcases withKey_eq_next h with ⟨hk, h⟩ | h
  · rcases withWholeBlocks_eq_next h with ⟨ha, h⟩ | ⟨ha, h⟩
    · exact .inl ⟨hk, ha, (withDin_eq_next h).1, (withDin_eq_next h).2⟩
    · exact .inr (.inr ⟨hk, ha, h⟩)
  · exact .inr (.inl h)

/-- The common checks passed. -/
theorem withBuffer_of_passed {s : State} (hk : s.keyInit = true) (ha : s.n % s.bs = 0)
    (hl : s.cur.din.length = s.n) (k : Result) : withBuffer s k = k := by
  simp [withBuffer, withKey_of_keyed hk, withWholeBlocks_of_aligned ha, withDin_of_length hl]

/-- What an ECB command does when it answers a next state (R222, R225). -/
theorem runEcb_eq_next {f : List Byte → List Byte} {s t : State} (h : runEcb f s = .next t) :
    (∃ e, t = s.respond (errorResponse e)) ∨
    t = s.respond (okResponse 0 (s.inputBlocks.map f).flatten) := by
  rcases withBuffer_eq_next h with ⟨-, -, -, h⟩ | ⟨-, h⟩ | ⟨-, -, h⟩
  · exact .inr (succeed_eq_next_iff.1 h)
  · exact .inl ⟨_, h⟩
  · exact .inl ⟨_, h⟩

/-- What a chained command does when it answers a next state (R223, R224, R226, R227). -/
theorem runChained_eq_next {f : ChainStep} {s t : State} (h : runChained f s = .next t) :
    (∃ e, t = s.respond (errorResponse e)) ∨
    (s.keyInit = true ∧
      t = State.respond { s with chain := (chainLoop f s.inputBlocks s.chain).2 }
        (okResponse 0 (chainLoop f s.inputBlocks s.chain).1.flatten)) := by
  rcases withBuffer_eq_next h with ⟨hk, -, -, h⟩ | ⟨-, h⟩ | ⟨-, -, h⟩
  · exact .inr ⟨hk, succeed_eq_next_iff.1 h⟩
  · exact .inl ⟨_, h⟩
  · exact .inl ⟨_, h⟩

/-- What an accessor does when it answers a next state (R263). -/
theorem readRegister_eq_next {v : BitVec 8} {s t : State} (h : readRegister v s = .next t) :
    t = s.respond (errorResponse .keyNotInitialized) ∨ t = s.respond (okResponse (v.setWidth 32) []) := by
  rcases withKey_eq_next h with ⟨-, h⟩ | ⟨-, h⟩
  · exact .inr (succeed_eq_next_iff.1 (withDin_eq_next h).2)
  · exact .inl h

end Sys2Proof.Machine
end

