-- ==== Sys2Proof/Laws/Exec.lean ====
section
/-!
SUPPORT. Everything a command and a step can do, said once (R35, R270, R279), and what a session gives the
round engine.
-/

namespace Sys2Proof.Machine

theorem keylenSupported_iff {n : Nat} : keylenSupported n = true ↔ SizeOk n := by
  simp [keylenSupported, Config.keylenSet]

theorem blksizeSupported_iff {n : Nat} : blksizeSupported n = true ↔ SizeOk n := by
  simp [blksizeSupported, Config.blksizeSet]

/-- Everything `MAKEKEY` can do (R158, R159). -/
theorem execMakeKey_eq_next {z : Bool} {kl bs : Nat} {s t : State} (h : execMakeKey z kl bs s = .next t) :
    (¬ SizeOk kl ∧ t = s.respond (errorResponse .invalidKeyLength)) ∨
    (SizeOk kl ∧ ¬ SizeOk bs ∧ t = s.respond (errorResponse .invalidBlockSize)) ∨
    (SizeOk kl ∧ SizeOk bs ∧ s.cur.din.length = makeKeyDinLength z kl bs ∧
      t = (s.establish kl bs (keyOperand s.cur.din kl) (chainInitOperand z s.cur.din kl bs)).respond
        (okResponse 0 [])) := by
  unfold execMakeKey at h
  split at h
  · rename_i hk
    split at h
    · rename_i hb
      obtain ⟨hl, h⟩ := withDin_eq_next h
      exact .inr (.inr ⟨keylenSupported_iff.1 hk, blksizeSupported_iff.1 hb, hl, succeed_eq_next_iff.1 h⟩)
    · rename_i hb
      exact .inr (.inl ⟨keylenSupported_iff.1 hk, mt blksizeSupported_iff.2 hb, raise_eq_next_iff.1 h⟩)
  · rename_i hk
    exact .inl ⟨mt keylenSupported_iff.2 hk, raise_eq_next_iff.1 h⟩

/-- Everything a command can do when it answers a next state: an error changes no register (R279); otherwise
`MAKEKEY` establishes a session, a chained command or `RESETCHAIN` writes `CHAIN` alone, and every other command
only responds (R35). -/
theorem exec_eq_next {i : Instr} {s t : State} (h : exec i s = .next t) :
    (∃ e, t = s.respond (errorResponse e)) ∨
    (∃ z kl bs, i = .makeKey z kl bs ∧ SizeOk kl ∧ SizeOk bs ∧
      s.cur.din.length = makeKeyDinLength z kl bs ∧
      t = (s.establish kl bs (keyOperand s.cur.din kl) (chainInitOperand z s.cur.din kl bs)).respond
        (okResponse 0 [])) ∨
    (∃ v d, i.isMakeKey = false ∧ t = s.respond (okResponse v d)) ∨
    (∃ f d, i.chained = true ∧ s.keyInit = true ∧
      t = State.respond { s with chain := (chainLoop f s.inputBlocks s.chain).2 } (okResponse 0 d)) ∨
    (i = .resetChain ∧ s.keyInit = true ∧
      t = State.respond { s with chain := s.chain0 } (okResponse 0 [])) := by
  cases i with
  | makeKey z kl bs =>
    rcases execMakeKey_eq_next h with ⟨-, h⟩ | ⟨-, -, h⟩ | ⟨hk, hb, hl, h⟩
    · exact .inl ⟨_, h⟩
    · exact .inl ⟨_, h⟩
    · exact .inr (.inl ⟨z, kl, bs, rfl, hk, hb, hl, h⟩)
  | encryptBlock =>
    rcases withKey_eq_next h with ⟨-, h⟩ | ⟨-, h⟩
    · exact .inr (.inr (.inl ⟨_, _, rfl, succeed_eq_next_iff.1 (withDin_eq_next h).2⟩))
    · exact .inl ⟨_, h⟩
  | decryptBlock =>
    rcases withKey_eq_next h with ⟨-, h⟩ | ⟨-, h⟩
    · exact .inr (.inr (.inl ⟨_, _, rfl, succeed_eq_next_iff.1 (withDin_eq_next h).2⟩))
    · exact .inl ⟨_, h⟩
  | encryptEcb => exact (runEcb_eq_next h).imp_right fun h => .inr (.inl ⟨_, _, rfl, h⟩)
  | decryptEcb => exact (runEcb_eq_next h).imp_right fun h => .inr (.inl ⟨_, _, rfl, h⟩)
  | encryptCbc => exact (runChained_eq_next h).imp_right fun h => .inr (.inr (.inl ⟨_, _, rfl, h.1, h.2⟩))
  | encryptCfb => exact (runChained_eq_next h).imp_right fun h => .inr (.inr (.inl ⟨_, _, rfl, h.1, h.2⟩))
  | decryptCbc => exact (runChained_eq_next h).imp_right fun h => .inr (.inr (.inl ⟨_, _, rfl, h.1, h.2⟩))
  | decryptCfb => exact (runChained_eq_next h).imp_right fun h => .inr (.inr (.inl ⟨_, _, rfl, h.1, h.2⟩))
  | getKeyLength =>
    rcases readRegister_eq_next h with h | h
    · exact .inl ⟨_, h⟩
    · exact .inr (.inr (.inl ⟨_, _, rfl, h⟩))
  | getBlockSize =>
    rcases readRegister_eq_next h with h | h
    · exact .inl ⟨_, h⟩
    · exact .inr (.inr (.inl ⟨_, _, rfl, h⟩))
  | getRounds =>
    rcases readRegister_eq_next h with h | h
    · exact .inl ⟨_, h⟩
    · exact .inr (.inr (.inl ⟨_, _, rfl, h⟩))
  | resetChain =>
    rcases withKey_eq_next h with ⟨hk, h⟩ | ⟨-, h⟩
    · exact .inr (.inr (.inr (.inr ⟨rfl, hk, succeed_eq_next_iff.1 (withDin_eq_next h).2⟩)))
    · exact .inl ⟨_, h⟩

/-- Everything performing an accepted transaction can do: a legal word runs its command, an illegal one raises
`InvalidCommand` (R88). -/
theorem perform_eq_next {s t : State} (h : s.perform = .next t) :
    (∃ i, decode s.cur.cmd = .legal i ∧ exec i s = .next t) ∨
    (∃ why, decode s.cur.cmd = .illegal why ∧ t = s.respond (errorResponse .invalidCommand)) := by
  unfold State.perform at h
  split at h
  · exact .inl ⟨_, ‹_›, h⟩
  · exact .inr ⟨_, ‹_›, raise_eq_next_iff.1 h⟩

/-- Everything a step can do (R6, R310). -/
theorem step_eq_next {s t : State} (h : step s = .next t) :
    (s.inputs = [] ∧ t = s) ∨
    (∃ rest, s.inputs = .reset :: rest ∧ t = s.hostReset rest) ∨
    (∃ tr rest, s.inputs = .command tr :: rest ∧ (s.accept tr rest).perform = .next t) := by
  unfold step at h
  split at h <;> rename_i hi
  · exact .inl ⟨hi, by cases h; rfl⟩
  · exact .inr (.inl ⟨_, hi, by cases h; rfl⟩)
  · exact .inr (.inr ⟨_, _, hi, h⟩)

section InSession

variable {s : State}

/-- `BLKSIZE = 4 * Nb` in a session (R23). -/
theorem State.InSession.bs_eq (h : s.InSession) : s.bs = 4 * s.nb := by
  obtain ⟨-, hb, -⟩ := h
  simp only [State.nb, State.bs]
  omega

/-- A block is not empty. -/
theorem State.InSession.bs_pos (h : s.InSession) : 0 < s.bs := by
  obtain ⟨-, hb, -⟩ := h
  simp only [State.bs]
  omega

/-- The schedule of a session has one subkey per round plus one (R152). -/
theorem State.InSession.w_length (h : s.InSession) : s.w.length = s.nb * (s.nr + 1) := by
  obtain ⟨hk, hb, hr, hl, hw, -⟩ := h
  have e : s.blksize.toNat / 4 = s.nb := rfl
  have hnk : s.key.length / 4 ≤ s.nb * (max (s.key.length / 4) s.nb + 6 + 1) := by
    have h4 : 4 ≤ s.nb := by omega
    calc s.key.length / 4 ≤ max (s.key.length / 4) s.nb + 6 + 1 := by omega
      _ ≤ s.nb * (max (s.key.length / 4) s.nb + 6 + 1) := Nat.le_mul_of_pos_left _ (by omega)
  rw [hw, e, keyExpansion_length hnk, State.nr, hr, hl, e]

/-- `Cipher` maps blocks to blocks (R188). -/
theorem State.InSession.cipher_length (h : s.InSession) {b : List Byte} (hb : b.length = s.bs) :
    (s.cipher b).length = s.bs := by
  rw [h.bs_eq] at hb ⊢
  exact Machine.cipher_length h.w_length hb

/-- `InvCipher` maps blocks to blocks (R189). -/
theorem State.InSession.invCipher_length (h : s.InSession) {b : List Byte} (hb : b.length = s.bs) :
    (s.invCipher b).length = s.bs := by
  rw [h.bs_eq] at hb ⊢
  exact Machine.invCipher_length h.w_length hb

end InSession

end Sys2Proof.Machine
end

