-- ==== Sys2Proof/Laws/PerInstr.lean ====
section
/-!
SUPPORT. Families of facts about every instruction, one lemma per constructor.

`EncodingRow`: the word of a well-formed instruction is selected by the row of R94 with its mnemonic.
-/

namespace Sys2Proof.Laws.EncodingRow

/-- The row of the opcode map with the instruction's mnemonic selects its word (R94). -/
def Statement (i : Instr) : Prop :=
  i.wf = true → ∃ row ∈ opcodeRows, row.mnemonic = i.mnemonic ∧ row.selects (encode i) = true

theorem makeKey (nullChain : Bool) (keyLength blockSize : Nat) :
    Statement (.makeKey nullChain keyLength blockSize) := by
  intro _
  refine ⟨⟨"MAKEKEY", 0x00000001, 0xFF0000BF⟩, by decide, rfl, ?_⟩
  simp only [OpcodeRow.selects, encode, beq_iff_eq]
  refine BitVec.eq_of_getLsbD_eq fun i hi => ?_
  rw [BitVec.getLsbD_and, commandWord_getLsbD]
  interval_cases i <;> simp

theorem encryptBlock : Statement .encryptBlock :=
  fun _ => by decide

theorem decryptBlock : Statement .decryptBlock :=
  fun _ => by decide

theorem encryptEcb : Statement .encryptEcb :=
  fun _ => by decide

theorem encryptCbc : Statement .encryptCbc :=
  fun _ => by decide

theorem encryptCfb : Statement .encryptCfb :=
  fun _ => by decide

theorem decryptEcb : Statement .decryptEcb :=
  fun _ => by decide

theorem decryptCbc : Statement .decryptCbc :=
  fun _ => by decide

theorem decryptCfb : Statement .decryptCfb :=
  fun _ => by decide

theorem getKeyLength : Statement .getKeyLength :=
  fun _ => by decide

theorem getBlockSize : Statement .getBlockSize :=
  fun _ => by decide

theorem getRounds : Statement .getRounds :=
  fun _ => by decide

theorem resetChain : Statement .resetChain :=
  fun _ => by decide

end Sys2Proof.Laws.EncodingRow
end

