-- ==== Sys2Proof/Tests/Slice0.lean ====
section
/-!
SUPPORT. Tests and witnesses. Expected values are those of spec 95_test_vectors.md and 96_test_vector_listings.md
(the section stands in each docstring) or are written out from the rule named; none is the model's own answer.
-/

namespace Sys2Proof.Tests

open Sys2Proof.Machine

-- The proofs are run one after another: side by side, the stacks of their threads fill the memory limit.
set_option Elab.async false

/-! ## Helpers -/

/-- A keyed engine with nothing at its port. -/
def session (keyLength blockSize : Nat) (key chain : List Byte) : State :=
  State.reset.establish keyLength blockSize key chain

/-- `s` with one command presented. -/
def presented (s : State) (cmd len : BitVec 32) (din : List Byte) : State :=
  { s with inputs := [.command ⟨cmd, len, din⟩] }

/-- The next state, if there is one. -/
def nextOf : Result → Option State
  | .next t => some t
  | .fault _ => none
  | .refused _ => none

/-- The state after one command. -/
def after (s : State) (cmd len : BitVec 32) (din : List Byte) : Option State :=
  nextOf (step (presented s cmd len din))

/-- The response to one command: `STATUS`, `RVAL`, `DOUT`. -/
def reply (s : State) (cmd len : BitVec 32) (din : List Byte) : Option Response :=
  (after s cmd len din).bind fun t => t.responses.getLast?

/-- A result that has a next state is one. -/
theorem isNext {r : Result} (h : (nextOf r).isSome = true) : ∃ t, r = .next t := by
  cases r with
  | next t => exact ⟨t, rfl⟩
  | fault f => cases f
  | refused q => simp [nextOf] at h

/-- The session of section 5.1: FIPS-197 A.1 key, chain-init 00 .. 0f. -/
def s51 : State :=
  session 16 16 (hexBytes 16 0x2b7e151628aed2a6abf7158809cf4f3c) (hexBytes 16 0x000102030405060708090a0b0c0d0e0f)

/-- Blocks `P1 P2` of section 5.1. -/
def p12 : List Byte := hexBytes 32 0x6bc1bee22e409f96e93d7e117393172aae2d8a571e03ac9c9eb76fac45af8e51

/-- CBC ciphertext `C1 C2` of section 5.1. -/
def c12 : List Byte := hexBytes 32 0x7649abac8119b246cee98e9b12e9197d5086cb9b507219ee95db113a917678b2

/-- CFB ciphertext `F1 F2` of section 5.1. -/
def f12 : List Byte := hexBytes 32 0x3b3fd92eb72dad20333449f8e83cfb4ac8a64537a0b3a93fcde3cdad9f1ce58b

/-- ECB ciphertext of `P1 P2`, section 5.1. -/
def e12 : List Byte := hexBytes 32 0x3ad77bb40d7a3660a89ecaf32466ef97f5d3d58503b9699de785895a96fdbaaf

/-! ## WellFormed smoke: ill-formed terms are refused -/

/-- `KEYLEN_f` has 8 bits (R85). -/
theorem test_wf_refuses_long_key_length : (Instr.makeKey false 256 16).wf = false := by decide

/-- `BLKSIZE_f` has 8 bits (R85). -/
theorem test_wf_refuses_long_block_size : (Instr.makeKey true 16 256).wf = false := by decide

/-- "range 0..255" (R85). -/
theorem test_wf_accepts_field_limits : (Instr.makeKey true 255 0).wf = true ∧ (Instr.makeKey false 0 255).wf = true := by
  decide

/-! ## Decoding: words written out field by field from R81
(`reserved | BLKSIZE_f | KEYLEN_f | reserved | Z | MODE | OP`) -/

/-- `MAKEKEY`: 24-byte block, 32-byte key, `Z = 0`. -/
theorem test_decode_makeKey :
    decode 0b00000000000110000010000000000001 = .legal (.makeKey false 32 24) := by decide

/-- `MAKEKEY` with `Z = 1`, 16 and 16. -/
theorem test_decode_makeKey_nullChain :
    decode 0b00000000000100000001000001000001 = .legal (.makeKey true 16 16) := by decide

/-- The block commands: `OP` 2 and 3. -/
theorem test_decode_block :
    decode 0b00000000000000000000000000000010 = .legal .encryptBlock ∧
    decode 0b00000000000000000000000000000011 = .legal .decryptBlock := by decide

/-- `ENCRYPT`: `OP` 4, `MODE` 0, 1, 2. -/
theorem test_decode_encrypt :
    decode 0b00000000000000000000000000000100 = .legal .encryptEcb ∧
    decode 0b00000000000000000000000000010100 = .legal .encryptCbc ∧
    decode 0b00000000000000000000000000100100 = .legal .encryptCfb := by decide

/-- `DECRYPT`: `OP` 5, `MODE` 0, 1, 2. -/
theorem test_decode_decrypt :
    decode 0b00000000000000000000000000000101 = .legal .decryptEcb ∧
    decode 0b00000000000000000000000000010101 = .legal .decryptCbc ∧
    decode 0b00000000000000000000000000100101 = .legal .decryptCfb := by decide

/-- The accessors and `RESETCHAIN`: `OP` 6, 7, 8, 9. -/
theorem test_decode_plain :
    decode 0b00000000000000000000000000000110 = .legal .getKeyLength ∧
    decode 0b00000000000000000000000000000111 = .legal .getBlockSize ∧
    decode 0b00000000000000000000000000001000 = .legal .getRounds ∧
    decode 0b00000000000000000000000000001001 = .legal .resetChain := by decide

/-- Section 6.1: the illegal words of its table. -/
theorem test_decode_illegal :
    ∀ w ∈ [0x00000000, 0x00101011, 0x00101081, 0x01101001, 0x00000012, 0x00000042, 0x00001002, 0x00100003,
      0x00000034, 0x00000035, 0x00000044, 0x00001014, 0x00000019, 0x00000016, 0x0000000A, 0x0000000F,
      0x80000002, 0xFFFFFFFF], (decode (BitVec.ofNat 32 w)).instr? = none := by decide

/-- Section 6.1: `MAKEKEY` words whose sizes are unsupported are legal all the same. -/
theorem test_decode_makeKey_any_size :
    decode 0x00000001 = .legal (.makeKey false 0 0) ∧ decode 0x00FFFF41 = .legal (.makeKey true 255 255) := by decide

/-- The host's numbering of a word (opcode_table.json): bit 0 of the number is bit 0 of `CMD`. -/
theorem test_decodeTableWord :
    decodeTableWord 32 0x00182041 = some (.makeKey true 32 24) ∧ decodeTableWord 32 0x25 = some .decryptCfb ∧
    decodeTableWord 32 0x35 = none := by decide

/-- The encoder writes the words of section 6.1. -/
theorem test_encode :
    encode (.makeKey false 16 16) = 0x00101001 ∧ encode (.makeKey true 255 255) = 0x00FFFF41 ∧
    encode .decryptCbc = 0x00000015 ∧ encode .resetChain = 0x00000009 := by decide

/-- Each row, presented right after reset through `withFetchWord`, is run: the engine answers. -/
theorem test_withFetchWord_runs :
    (nextOf (step (State.reset.withFetchWord 32 0x00101001))).map (fun t => (t.keyInit, t.responses)) =
      some (true, [⟨0, 0, []⟩]) ∧
    (nextOf (step (State.reset.withFetchWord 32 0x00000014))).map (fun t => t.responses) =
      some [⟨4, 0, []⟩] := by decide +kernel

/-! ## Primitives (section 2) -/

/-- Section 2.1. -/
theorem test_xtime : [0x00, 0x01, 0x7f, 0x80, 0xff, 0x8d, 0x57].map xtime =
    [0x00, 0x02, 0xfe, 0x1b, 0xe5, 0x01, 0xae] := by decide

/-- Section 2.1. -/
theorem test_gfMul : gfMul 0x57 0x83 = 0xc1 ∧ gfMul 0x57 0x13 = 0xfe ∧ gfMul 0xff 0xff = 0x13 ∧
    gfMul 0x80 0x80 = 0x9a ∧ gfMul 0x0d 0x57 = 0x9e ∧ gfMul 0x57 0x00 = 0x00 := by decide

/-- Section 2.2. -/
theorem test_gfInv : [0x00, 0x01, 0x02, 0x03, 0x10, 0x53, 0x80, 0xff].map gfInv0 =
    [0x00, 0x01, 0x8d, 0xf6, 0x74, 0xca, 0x83, 0x1c] ∧ gfInv 0 = none := by decide +kernel

/-- Section 2.3. -/
theorem test_affine : [0x00, 0x01, 0x02, 0x80, 0x8d, 0xca, 0xf6, 0xff].map affine =
    [0x63, 0x7c, 0x5d, 0xec, 0x77, 0xed, 0x7b, 0x9c] := by decide

/-- Section 2.4. -/
theorem test_sbox : [0x00, 0x10, 0x52, 0x53, 0x80, 0xed, 0xfe, 0xff].map sbox =
      [0x63, 0xca, 0x00, 0xed, 0xcd, 0x55, 0xbb, 0x16] ∧
    [0x00, 0x10, 0x52, 0x53, 0x80, 0xed, 0xfe, 0xff].map invSbox =
      [0x52, 0x7c, 0x48, 0x50, 0x3a, 0x53, 0x0c, 0x7d] := by decide +kernel

/-- Section 2.5. -/
theorem test_scheduleWords : rotWord ⟨0x09, 0xcf, 0x4f, 0x3c⟩ = ⟨0xcf, 0x4f, 0x3c, 0x09⟩ ∧
    subWord ⟨0x2a, 0x6c, 0x76, 0x05⟩ = ⟨0xe5, 0x50, 0x38, 0x6b⟩ ∧ rcon 9 = 0x1b ∧ rcon 29 = 0xc5 := by
  decide +kernel

/-- Section 2.6. -/
theorem test_shiftRows :
    storeState (shiftRows (loadState (hexBytes 16 0x000102030405060708090a0b0c0d0e0f))) =
      hexBytes 16 0x00050a0f04090e03080d02070c01060b ∧
    storeState (shiftRows (loadState (hexBytes 32
        0x000102030405060708090a0b0c0d0e0f101112131415161718191a1b1c1d1e1f))) =
      hexBytes 32 0x00050e1304091217080d161b0c111a1f10151e0314190207181d060b1c010a0f ∧
    storeState (invShiftRows (loadState (hexBytes 24 0x000102030405060708090a0b0c0d0e0f1011121314151617))) =
      hexBytes 24 0x0015120f04011613080502170c090603100d0a0714110e0b := by decide +kernel

/-- Section 2.7. -/
theorem test_mixColumn :
    mixColumn ⟨0xdb, 0x13, 0x53, 0x45⟩ = ⟨0x8e, 0x4d, 0xa1, 0xbc⟩ ∧
    mixColumn ⟨0x00, 0x01, 0x00, 0x00⟩ = ⟨0x03, 0x02, 0x01, 0x01⟩ ∧
    invMixColumn ⟨0xd4, 0xbf, 0x5d, 0x30⟩ = ⟨0x26, 0x5c, 0xa3, 0xdf⟩ := by decide +kernel

/-- Section 2.8. -/
theorem test_addRoundKey :
    storeState (addRoundKey s51.w 4 0 (loadState (hexBytes 16 0x3243f6a8885a308d313198a2e0370734))) =
      hexBytes 16 0x193de3bea0f4e22b9ac68d2ae9f84808 := by decide +kernel

/-- Section 3.3: `Nk = 8`, the extra `SubWord` at word 12, and the last word. -/
theorem test_keyExpansion :
    (keyExpansion (hexBytes 32 0x603deb1015ca71be2b73aef0857d77811f352c073b6108d72d9810a30914dff4) 4)[12]? =
      some ⟨0xa8, 0xb0, 0x9c, 0x1a⟩ ∧
    (keyExpansion (hexBytes 32 0x603deb1015ca71be2b73aef0857d77811f352c073b6108d72d9810a30914dff4) 4)[59]? =
      some ⟨0x70, 0x6c, 0x63, 0x1e⟩ := by decide +kernel

/-! ## Commands, one step each -/

/-- Section 6.2 and R158: key 00 .. 0f, chain-init a0 .. af: the registers of the session, the last schedule word. -/
theorem test_makeKey :
    ((after State.reset 0x00101001 0
        (hexBytes 32 0x000102030405060708090a0b0c0d0e0fa0a1a2a3a4a5a6a7a8a9aaabacadaeaf)).map fun t =>
      (t.keyInit, t.keylen, t.blksize, t.rounds)) = some (true, 16, 16, 10) ∧
    ((after State.reset 0x00101001 0
        (hexBytes 32 0x000102030405060708090a0b0c0d0e0fa0a1a2a3a4a5a6a7a8a9aaabacadaeaf)).map fun t =>
      (t.w.getLast?, t.chain0, t.chain)) =
      some (some ⟨0x4d, 0x2b, 0x30, 0xc5⟩,
        hexBytes 16 0xa0a1a2a3a4a5a6a7a8a9aaabacadaeaf, hexBytes 16 0xa0a1a2a3a4a5a6a7a8a9aaabacadaeaf) := by
  decide +kernel

/-- Section 6.2: the size checks and their order. -/
theorem test_makeKey_errors :
    reply s51 0x00101401 0 [] = some ⟨1, 0, []⟩ ∧ reply s51 0x00141001 0 [] = some ⟨2, 0, []⟩ ∧
    reply s51 0x00141401 0 [] = some ⟨1, 0, []⟩ := by decide +kernel

/-- Section 1.4: the pair 16, 24. -/
theorem test_encryptBlock :
    reply (session 16 24 (hexBytes 16 0x000102030405060708090a0b0c0d0e0f) (zeros 24)) 0x00000002 0
        (hexBytes 24 0x00112233445566778899aabbccddeeff1021324354657687) =
      some ⟨0, 0, hexBytes 24 0xe64018d211d8349b350f38893d7d23899fece7a9aca7c6ba⟩ := by decide +kernel

/-- Section 1.4: the pair 24, 32. -/
theorem test_encryptBlock_wide :
    reply (session 24 32 (hexBytes 24 0x000102030405060708090a0b0c0d0e0f1011121314151617) (zeros 32)) 0x00000002 0
        (hexBytes 32 0x00112233445566778899aabbccddeeff102132435465768798a9bacbdcedfe0f) =
      some ⟨0, 0, hexBytes 32 0x3c386395e910345a59a7dd165dcbda604bf072f0a03a6b0055a79b734e668868⟩ := by
  decide +kernel

/-- Section 1.3, FIPS-197 C.3. -/
theorem test_decryptBlock :
    reply (session 32 16 (hexBytes 32 0x000102030405060708090a0b0c0d0e0f101112131415161718191a1b1c1d1e1f) (zeros 16))
        0x00000003 0 (hexBytes 16 0x8ea2b7ca516745bfeafc49904b496089) =
      some ⟨0, 0, hexBytes 16 0x00112233445566778899aabbccddeeff⟩ := by decide +kernel

/-- Section 1.4: the pair 32, 32. -/
theorem test_decryptBlock_wide :
    reply (session 32 32 (hexBytes 32 0x000102030405060708090a0b0c0d0e0f101112131415161718191a1b1c1d1e1f) (zeros 32))
        0x00000003 0 (hexBytes 32 0x288fa9d23d00d9dc0a39b33fa92867c6488b5e0f18a6f74c072078ec815462e6) =
      some ⟨0, 0, hexBytes 32 0x00112233445566778899aabbccddeeff102132435465768798a9bacbdcedfe0f⟩ := by
  decide +kernel

/-- Section 5.1, two blocks. -/
theorem test_encryptEcb : (after s51 0x00000004 32 p12).map (fun t => (t.responses, t.chain)) =
    some ([⟨0, 0, e12⟩], s51.chain) := by decide +kernel

/-- Section 6.3: 17 bytes in 16-byte blocks. -/
theorem test_encryptEcb_length : reply s51 0x00000004 17 (zeros 17) = some ⟨3, 0, []⟩ := by decide +kernel

/-- Section 5.1, two blocks; `CHAIN` ends as `C2`. -/
theorem test_encryptCbc : (after s51 0x00000014 32 p12).map (fun t => (t.responses, t.chain)) =
    some ([⟨0, 0, c12⟩], c12.drop 16) := by decide +kernel

/-- Section 5.1, two blocks; `CHAIN` ends as `F2`. -/
theorem test_encryptCfb : (after s51 0x00000024 32 p12).map (fun t => (t.responses, t.chain)) =
    some ([⟨0, 0, f12⟩], f12.drop 16) := by decide +kernel

/-- Section 5.1, two blocks. -/
theorem test_decryptEcb : (after s51 0x00000005 32 e12).map (fun t => (t.responses, t.chain)) =
    some ([⟨0, 0, p12⟩], s51.chain) := by decide +kernel

/-- Section 5.1, two blocks; `CHAIN` ends as the ciphertext block `C2`. -/
theorem test_decryptCbc : (after s51 0x00000015 32 c12).map (fun t => (t.responses, t.chain)) =
    some ([⟨0, 0, p12⟩], c12.drop 16) := by decide +kernel

/-- Section 5.1, two blocks; `CHAIN` ends as the ciphertext block `F2`. -/
theorem test_decryptCfb : (after s51 0x00000025 32 f12).map (fun t => (t.responses, t.chain)) =
    some ([⟨0, 0, p12⟩], f12.drop 16) := by decide +kernel

/-- Section 1.4, the pair 24, 32: `GETKEYLENGTH`, `GETBLOCKSIZE`, `GETROUNDS`. -/
theorem test_accessors :
    reply (session 24 32 (zeros 24) (zeros 32)) 0x00000006 0 [] = some ⟨0, 24, []⟩ ∧
    reply (session 24 32 (zeros 24) (zeros 32)) 0x00000007 0 [] = some ⟨0, 32, []⟩ ∧
    reply (session 24 32 (zeros 24) (zeros 32)) 0x00000008 0 [] = some ⟨0, 14, []⟩ := by decide +kernel

/-- Section 6.3: right after reset. -/
theorem test_accessors_unkeyed :
    [0x00000006, 0x00000007, 0x00000008, 0x00000009].map (fun w => reply State.reset w 0 []) =
      List.replicate 4 (some ⟨4, 0, []⟩) := by decide +kernel

/-- R228: after `ENCRYPT.CBC` left `C2` in `CHAIN`, `RESETCHAIN` restores the chain-init of section 5.1. -/
theorem test_resetChain : (after { s51 with chain := c12.drop 16 } 0x00000009 0 []).map (fun t => t.chain) =
    some (hexBytes 16 0x000102030405060708090a0b0c0d0e0f) := by decide +kernel

/-- R68: a block command with a block and a half has no step. -/
theorem test_malformed : step (presented s51 0x00000002 0 (zeros 24)) = .refused .malformedTransaction := by
  rfl

/-! ## Witnesses: for every statement with hypotheses, states and operands that meet them all together -/

/-- A 32-byte key and block: the largest session. -/
def s32 : State := session 32 32 (hexBytes 32 0x0f1e2d3c4b5a69788796a5b4c3d2e1f0) (zeros 32)

/-- `s51` with `din` latched and `LEN = len(din)`. -/
def s51With (din : List Byte) : State := { s51 with cur := ⟨0, BitVec.ofNat 32 din.length, din⟩ }

/-- The sessions are sessions, at both ends of the size range. -/
theorem witness_Ready : s51.Ready ∧ s32.Ready := by decide +kernel

theorem witness_DecodeOfEncodeIsTheCommand :
    (Instr.makeKey true 255 255).wf = true ∧ (Instr.makeKey false 0 0).wf = true ∧ Instr.resetChain.wf = true := by
  decide

theorem witness_EncodeOfDecodeIsTheWord :
    decode 0x00FFFF41 = .legal (.makeKey true 255 255) ∧ decode 0x00000025 = .legal .decryptCfb := by decide

theorem witness_OpcodeRowsSelectExactlyTheLegalWords :
    (decode 0x00FFFF41 = .legal (.makeKey true 255 255) ∧ decode 0x00000009 = .legal .resetChain) ∧
    (decode 0x00000000 = .illegal .reservedOp ∧ decode 0x00000034 = .illegal .reservedMode ∧
      decode 0x00000012 = .illegal .unusedMode ∧ decode 0x00000042 = .illegal .unusedOperand ∧
      decode 0x00000081 = .illegal .reservedBit) := by decide

theorem witness_MakeKeyWordCarriesUnscaledSizes : ∃ keyLength blockSize : Nat, keyLength < 256 ∧ blockSize < 256 :=
  ⟨255, 0, by decide⟩

theorem witness_CallFormsHaveTheirCommandWords :
    (∃ keyLength blockSize : Nat, keyLength < 256 ∧ blockSize < 256 ∧ 254 < blockSize) ∧
    (∃ (buffer : List Byte) (m : Mode) (encryptWord decryptWord : BitVec 32), buffer.length < 2 ^ 32 ∧
      (m = .ecb → encryptWord = 0x00000004 ∧ decryptWord = 0x00000005) ∧
      (m = .cbc → encryptWord = 0x00000014 ∧ decryptWord = 0x00000015) ∧
      (m = .cfb → encryptWord = 0x00000024 ∧ decryptWord = 0x00000025)) :=
  ⟨⟨0, 255, by decide⟩, ⟨p12, .cfb, 0x00000024, 0x00000025, by decide +kernel⟩⟩

theorem witness_StepRunsTheDecodedCommand :
    (presented s51 0x00000014 32 p12).inputs = [.command ⟨0x00000014, 32, p12⟩] ∧
      decode 0x00000014 = .legal .encryptCbc := by decide

theorem witness_IdleStepChangesNothing : s51.inputs = [] := by decide

theorem witness_HostResetGivesAnUnkeyedInstance :
    ({ s51 with inputs := [.reset] } : State).inputs = .reset :: [] := by decide

/-- Each clause of R88 at the ends of its range, and the legal words beside them. -/
theorem witness_IllegalWordsRaiseInvalidCommand :
    (presented s51 0x00000010 5 []).inputs = [.command ⟨0x00000010, 5, []⟩] ∧
    (∀ c ∈ [0x0, 0xA, 0xF, 0x34, 0x35, 0x11, 0x12, 0x19, 0x42, 0x49, 0x102, 0xFF02, 0x10003, 0xFF0003, 0x81,
        0x1000001, 0x80000002],
      ((c % 16 = 0 ∨ 10 ≤ c % 16) ∨ ((c % 16 = 4 ∨ c % 16 = 5) ∧ c / 16 % 4 = 3) ∨
        (¬ (c % 16 = 4 ∨ c % 16 = 5) ∧ c / 16 % 4 ≠ 0) ∨ (c % 16 ≠ 1 ∧ c / 64 % 2 = 1) ∨
        (c % 16 ≠ 1 ∧ (c / 256 % 256 ≠ 0 ∨ c / 65536 % 256 ≠ 0)) ∨ c / 128 % 2 = 1 ∨ c / 16777216 ≠ 0)) ∧
    (∀ c ∈ [0x1, 0xFFFF41, 0x9, 0x24, 0x25],
      ¬ ((c % 16 = 0 ∨ 10 ≤ c % 16) ∨ ((c % 16 = 4 ∨ c % 16 = 5) ∧ c / 16 % 4 = 3) ∨
        (¬ (c % 16 = 4 ∨ c % 16 = 5) ∧ c / 16 % 4 ≠ 0) ∨ (c % 16 ≠ 1 ∧ c / 64 % 2 = 1) ∨
        (c % 16 ≠ 1 ∧ (c / 256 % 256 ≠ 0 ∨ c / 65536 % 256 ≠ 0)) ∨ c / 128 % 2 = 1 ∨ c / 16777216 ≠ 0)) := by
  decide

/-- Every clause of the priority: the illegal word, the two size checks and their overlap, a `MAKEKEY` that
succeeds, the unkeyed engine, the bad length, and the commands that succeed. -/
theorem witness_ErrorsFollowTheirPriority :
    (presented s51 0x00000000 0 []).inputs = [.command ⟨0x00000000, 0, []⟩] ∧
    decode 0x00000000 = .illegal .reservedOp ∧
    decode 0x00141401 = .legal (.makeKey false 20 20) ∧ ¬ SizeOk 20 ∧
    decode 0x00141001 = .legal (.makeKey false 16 20) ∧ SizeOk 16 ∧
    (∃ t, step (presented s51 0x00101041 0 (zeros 16)) = .next t) ∧
    decode 0x00101041 = .legal (.makeKey true 16 16) ∧
    decode 0x00000004 = .legal .encryptEcb ∧ Instr.encryptEcb.isMakeKey = false ∧
    (presented State.reset 0x00000004 17 []).keyInit = false ∧
    (presented s51 0x00000004 17 []).keyInit = true ∧ Instr.encryptEcb.multiBlock = true ∧
    (17 : BitVec 32).toNat % s51.blksize.toNat ≠ 0 ∧ (16 : BitVec 32).toNat % s51.blksize.toNat = 0 ∧
    (∃ t, step (presented s51 0x00000004 16 (zeros 16)) = .next t) ∧
    decode 0x00000008 = .legal .getRounds ∧ Instr.getRounds.multiBlock = false ∧
    (∃ t, step (presented s51 0x00000008 17 []) = .next t) := by
  refine ⟨by decide, by decide, by decide, by decide, by decide, by decide, isNext (by decide +kernel), by decide,
    by decide, by decide, by decide, by decide, by decide, by decide +kernel, by decide +kernel,
    isNext (by decide +kernel), by decide, by decide, isNext (by decide +kernel)⟩

theorem witness_UnkeyedCommandsRaiseKeyNotInitialized :
    State.reset.keyInit = false ∧ Instr.resetChain.isMakeKey = false ∧ ¬ (SizeOk 16 ∧ SizeOk 20) := by decide

theorem witness_FailedCommandChangesNoRegister :
    step (presented s51 0x00000004 17 []) =
        .next { s51 with cur := ⟨0x00000004, 17, []⟩, responses := s51.responses ++ [⟨3, 0, []⟩] } ∧
      (3 : BitVec 8) ≠ 0 := by
  refine ⟨?_, by decide⟩
  have h : (nextOf (step (presented s51 0x00000004 17 []))) =
      some { s51 with cur := ⟨0x00000004, 17, []⟩, responses := s51.responses ++ [⟨3, 0, []⟩] } := by decide +kernel
  obtain ⟨t, ht⟩ := isNext (r := step (presented s51 0x00000004 17 [])) (by rw [h]; rfl)
  rw [ht] at h ⊢
  exact congrArg _ (Option.some.inj h)

theorem witness_EveryCommandGetsOneResponse :
    (∃ t, step (presented s51 0x00000007 0 []) = .next t) ∧
    reply s51 0x00000007 0 [] = some ⟨0, 16, []⟩ ∧ (16 : BitVec 32) ≠ 0 :=
  ⟨isNext (by decide +kernel), by decide +kernel, by decide⟩

/-- Both clauses: one byte more than a block, and the block itself; an error with a wrong `DIN` is no refusal. -/
theorem witness_OnlyMalformedTransactionsAreRefused :
    ((s51With (zeros 17)).errorOf .encryptBlock = none ∧
      (s51With (zeros 17)).cur.din.length ≠ (s51With (zeros 17)).requiredDinLength
        (s51With (zeros 17)).cur.len.toNat .encryptBlock) ∧
    ¬ ((s51With (zeros 16)).errorOf .encryptBlock = none ∧
      (s51With (zeros 16)).cur.din.length ≠ (s51With (zeros 16)).requiredDinLength
        (s51With (zeros 16)).cur.len.toNat .encryptBlock) ∧
    (s51With (zeros 17)).errorOf .encryptCbc = some .invalidInputLength := by decide +kernel

/-- The size checks at the ends of their ranges, and both values of `Z`. -/
theorem witness_MakeKeyEstablishesTheSession :
    ¬ SizeOk 0 ∧ ¬ SizeOk 15 ∧ ¬ SizeOk 33 ∧ ¬ SizeOk 255 ∧ SizeOk 16 ∧ SizeOk 24 ∧ SizeOk 32 ∧
    (s51With (zeros 56)).cur.din.length = (if false = true then 32 else 32 + 24) ∧
    (s51With (zeros 32)).cur.din.length = (if true = true then 32 else 32 + 24) := by decide +kernel

theorem witness_NullChainEqualsZeroChainInit : (zeros 24).length = 24 ∧ (zeros 33).length = 33 := by decide

theorem witness_MakeKeyLeavesNothingOfTheOldSession :
    SizeOk 16 ∧ SizeOk 32 ∧
    ({ State.reset with cur := (s51With (zeros 48)).cur } : State).cur = (s51With (zeros 48)).cur ∧
    State.reset.inputs = (s51With (zeros 48)).inputs ∧ State.reset.responses = (s51With (zeros 48)).responses ∧
    (s51With (zeros 48)).cur.din.length = (s51With (zeros 48)).requiredDinLength
      (s51With (zeros 48)).cur.len.toNat (.makeKey false 16 32) := by decide +kernel

/-- The raw words, each branch of the recurrence (`Nk = 8`: words 8, 12 and 9), the last word, and two block sizes. -/
theorem witness_KeyExpansionFollowsTheRecurrence :
    (zeros 32).length = 4 * 8 ∧ 7 < 8 ∧
    (∀ i ∈ [8, 9, 12, 119], 8 ≤ i ∧ i < 8 * (max 8 8 + 6 + 1) ∧
      (keyExpansion (zeros 32) 8)[i - 8]?.isSome ∧ (keyExpansion (zeros 32) 8)[i - 1]?.isSome) ∧
    SizeOk (zeros 32).length ∧ 59 < (keyExpansion (zeros 32) 4).length ∧ 59 < (keyExpansion (zeros 32) 8).length := by
  decide +kernel

theorem witness_RoundCountTable : SizeOk 16 ∧ SizeOk 32 ∧ 16 ≤ 32 := by decide

theorem witness_RoundConstants : (1 : Nat) ≤ 1 := by decide

theorem witness_FieldLaws : (0x53 : Byte) ≠ 0 ∧ gfMul 0x53 0xca = 1 := by decide

theorem witness_InverseOfNonzeroBytes : (0x53 : Byte) ≠ 0 ∧ gfMul 0x53 0xca = 1 := by decide

theorem witness_ConstantMultipliersByDoubling :
    (0xae : Byte) = xtime 0x57 ∧ 0x47 = xtime 0xae ∧ 0x8e = xtime 0x47 := by decide

theorem witness_AffineTransformationBitByBit : 0 < 8 ∧ 7 < 8 := by decide

theorem witness_BlockFillsTheStateByColumns : (zeros 32).length = 4 * 8 ∧ 7 < 8 := by decide

/-- The first and the last subkey of the schedule of `s51`. -/
theorem witness_AddRoundKeyXorsTheSubkey :
    (loadState (zeros 16)).length = 4 ∧ (0 + 1) * 4 ≤ s51.w.length ∧ (10 + 1) * 4 ≤ s51.w.length ∧ 3 < 4 := by
  decide +kernel

/-- Row 3 of the two shift tables. -/
theorem witness_ShiftRowsMovesBytesByTheTable :
    (loadState (zeros 32)).length = 8 ∧ 3 < 4 ∧ 7 < 8 ∧
    4 = (if 8 = 8 then [0, 1, 3, 4] else [0, 1, 2, 3]).getD 3 0 ∧
    (loadState (zeros 24)).length = 6 ∧ 3 = (if 6 = 8 then [0, 1, 3, 4] else [0, 1, 2, 3]).getD 3 0 := by decide

theorem witness_InverseStepsUndoForwardSteps :
    (7 < (loadState (hexBytes 32 0x11)).length ∧ column (loadState (hexBytes 32 0x11)) 7 = ⟨0, 0, 0, 0x11⟩) ∧
    (loadState (zeros 16)).length = 4 ∧ (loadState (zeros 24)).length = 6 ∧ (loadState (zeros 32)).length = 8 := by
  decide

theorem witness_BlockFunctionsAreInverse :
    s32.w.length = 8 * (14 + 1) ∧ (zeros 32).length = 4 * 8 ∧ s51.w.length = 4 * (10 + 1) := by decide +kernel

/-- Two rounds under the schedule of `s51`, forward and back, and a row of the vectors. -/
theorem witness_CipherKnownAnswers :
    (∃ after : Nat → List Word, 1 ≤ 2 ∧ after 0 = addRoundKey s51.w 4 0 (loadState (zeros 16)) ∧
      ∀ r, 1 ≤ r → r < 2 → after r = addRoundKey s51.w 4 r (mixColumns (shiftRows (subBytes (after (r - 1)))))) ∧
    (∃ after : Nat → List Word, 1 ≤ 2 ∧ after 2 = addRoundKey s51.w 4 2 (loadState (zeros 16)) ∧
      ∀ r, 1 ≤ r → r < 2 →
        after r = invMixColumns (addRoundKey s51.w 4 r (invSubBytes (invShiftRows (after (r + 1)))))) ∧
    ⟨32, 32, 14, 0x288fa9d23d00d9dc0a39b33fa92867c6488b5e0f18a6f74c072078ec815462e6⟩ ∈ blockVectors ∧
    blockVectors.length = 9 := by
  refine ⟨⟨fun r => if r = 0 then addRoundKey s51.w 4 0 (loadState (zeros 16)) else
      addRoundKey s51.w 4 1 (mixColumns (shiftRows (subBytes (addRoundKey s51.w 4 0 (loadState (zeros 16)))))),
      by decide, rfl, fun r h1 h2 => ?_⟩,
    ⟨fun r => if r = 2 then addRoundKey s51.w 4 2 (loadState (zeros 16)) else
      invMixColumns (addRoundKey s51.w 4 1 (invSubBytes (invShiftRows (addRoundKey s51.w 4 2 (loadState (zeros 16)))))),
      by decide, rfl, fun r h1 h2 => ?_⟩, by decide, by decide⟩
  all_goals
    obtain rfl : r = 1 := by omega
    rfl

theorem witness_EncryptBlockAnswersTheCipher :
    s51.keyInit = true ∧ (s51With (zeros 16)).cur.din.length = s51.blksize.toNat ∧ State.reset.keyInit = false := by
  decide +kernel

theorem witness_DecryptBlockAnswersTheInverseCipher :
    s32.keyInit = true ∧ ({ s32 with cur := ⟨3, 0, zeros 32⟩ } : State).cur.din.length = s32.blksize.toNat ∧
      State.reset.keyInit = false := by
  decide +kernel

theorem witness_DecryptBlockReturnsThePlaintext :
    s32.Ready ∧ (zeros 32).length = s32.blksize.toNat := by decide +kernel

/-- The hypotheses of the six multi-block results: an unkeyed engine, a bad length, the empty buffer, two blocks. -/
theorem witness_multiBlock :
    State.reset.keyInit = false ∧
    (s51With (zeros 17)).keyInit = true ∧ (s51With (zeros 17)).cur.len.toNat % (s51With (zeros 17)).blksize.toNat ≠ 0 ∧
    (s51With []).Ready ∧ (s51With []).cur.len.toNat = 0 ∧ (s51With []).blksize.toNat = 16 ∧ 0 % 16 = 0 ∧
    (s51With []).cur.din.length = 0 ∧
    (s51With p12).Ready ∧ (s51With p12).cur.len.toNat = 32 ∧ (s51With p12).blksize.toNat = 16 ∧ 32 % 16 = 0 ∧
    (s51With p12).cur.din.length = 32 ∧ 1 < 32 / 16 := by decide +kernel

theorem witness_EncryptEcbEnciphersEachBlock : ∃ s : State, ∃ n bs : Nat, s.Ready ∧ s.cur.len.toNat = n ∧
    s.blksize.toNat = bs ∧ n % bs = 0 ∧ s.cur.din.length = n ∧ 1 < n / bs :=
  ⟨s51With p12, 32, 16, by decide +kernel⟩

theorem witness_DecryptEcbDeciphersEachBlock : ∃ s : State, ∃ n bs : Nat, s.Ready ∧ s.cur.len.toNat = n ∧
    s.blksize.toNat = bs ∧ n % bs = 0 ∧ s.cur.din.length = n ∧ 1 < n / bs :=
  witness_EncryptEcbEnciphersEachBlock

theorem witness_EncryptCbcChainsCiphertextBlocks : ∃ s : State, ∃ n bs : Nat, s.Ready ∧ s.cur.len.toNat = n ∧
    s.blksize.toNat = bs ∧ n % bs = 0 ∧ s.cur.din.length = n ∧ 1 < n / bs :=
  witness_EncryptEcbEnciphersEachBlock

theorem witness_EncryptCfbFeedsBackCiphertextBlocks : ∃ s : State, ∃ n bs : Nat, s.Ready ∧ s.cur.len.toNat = n ∧
    s.blksize.toNat = bs ∧ n % bs = 0 ∧ s.cur.din.length = n ∧ 1 < n / bs :=
  witness_EncryptEcbEnciphersEachBlock

theorem witness_DecryptCbcChainsConsumedBlocks : ∃ s : State, ∃ n bs : Nat, s.Ready ∧ s.cur.len.toNat = n ∧
    s.blksize.toNat = bs ∧ n % bs = 0 ∧ s.cur.din.length = n ∧ 1 < n / bs :=
  witness_EncryptEcbEnciphersEachBlock

theorem witness_DecryptCfbUsesTheForwardCipher : ∃ s : State, ∃ n bs : Nat, s.Ready ∧ s.cur.len.toNat = n ∧
    s.blksize.toNat = bs ∧ n % bs = 0 ∧ s.cur.din.length = n ∧ 1 < n / bs :=
  witness_EncryptEcbEnciphersEachBlock

theorem witness_EmptyBufferIsAccepted :
    (s51With []).keyInit = true ∧ Instr.decryptCfb.multiBlock = true ∧ (s51With []).cur.len = 0 ∧
      (s51With []).cur.din = [] := by decide +kernel

theorem witness_ResetChainRestoresTheChainInit :
    (s51With []).keyInit = true ∧ (s51With []).cur.din = [] ∧ State.reset.keyInit = false := by decide +kernel

theorem witness_ChainedRoundTripWithReset :
    s51.Ready ∧ s51.chain = s51.chain0 ∧ p12.length % s51.blksize.toNat = 0 ∧ p12.length < 2 ^ 32 := by
  decide +kernel

/-- A chained mode from the same `CHAIN`, and ECB from another one. -/
theorem witness_DecryptionFromTheSameChainReturnsTheBuffer :
    s51.Ready ∧ p12.length % s51.blksize.toNat = 0 ∧ p12.length < 2 ^ 32 ∧ (Mode.cbc ≠ .ecb → s51.chain = s51.chain) ∧
    (Mode.ecb ≠ .ecb → zeros 16 = s51.chain) := by
  refine ⟨by decide +kernel, by decide +kernel, by decide +kernel, fun _ => rfl, fun h => absurd rfl h⟩

theorem witness_SplittingABufferChangesNothing :
    s51.Ready ∧ Instr.decryptCfb.chained = true ∧ f12.length % s51.blksize.toNat = 0 ∧
    ([] : List Byte).length % s51.blksize.toNat = 0 ∧ f12.length + 0 < 2 ^ 32 := by decide +kernel

/-- A session that has encrypted a block and met an illegal word in between. -/
theorem witness_ResetChainIsolatesStreams :
    s51.keyInit = true ∧ s51.chain = s51.chain0 ∧
    (∀ x ∈ [HostAction.command ⟨0x00000014, 16, zeros 16⟩, .command ⟨0xFFFFFFFF, 0, []⟩],
      x.staysInSession = true) ∧
    (∃ t, Sys2Proof.core.run 2 { s51 with
      inputs := [.command ⟨0x00000014, 16, zeros 16⟩, .command ⟨0xFFFFFFFF, 0, []⟩] } = .next t) ∧
    (∃ v, step { s51 with inputs := [.command (callEncrypt p12 .cbc)] } = .next v) := by
  refine ⟨by decide +kernel, by decide +kernel, by decide, isNext (by decide +kernel), isNext (by decide +kernel)⟩

theorem witness_WrongChainSpoilsOnlyTheFirstBlock :
    (s51With c12).Ready ∧ (s51With c12).cur.len.toNat = 32 ∧ (s51With c12).blksize.toNat = 16 ∧ 32 % 16 = 0 ∧
    0 < 32 ∧ (s51With c12).cur.din.length = 32 ∧ (zeros 16).length = 16 := by decide +kernel

theorem witness_AccessorsAnswerTheSessionRegisters :
    (s51With []).Ready ∧ (s51With []).cur.din = [] ∧ State.reset.keyInit = false := by decide +kernel

theorem witness_CommandsWriteOnlyTheirRegisters :
    (∃ t, exec .encryptCbc (s51With p12) = .next t) ∧ Instr.encryptCbc.isMakeKey = false ∧
    (∃ t, exec .encryptCbc (s51With []) = .next t) ∧
    ¬ (Instr.encryptCbc.chained = true ∧ (s51With []).cur.len ≠ 0) ∧ Instr.encryptCbc ≠ .resetChain :=
  ⟨isNext (by decide +kernel), by decide, isNext (by decide +kernel), by decide +kernel, by decide⟩

theorem witness_BlockEcbAndAccessorsIgnoreTheChain :
    Instr.encryptEcb.isMakeKey = false ∧ Instr.encryptEcb.chained = false ∧ Instr.encryptEcb ≠ .resetChain ∧
    (∃ t, exec .encryptEcb (s51With p12) = .next t) :=
  ⟨by decide, by decide, by decide, isNext (by decide +kernel)⟩

/-- `MAKEKEY`, and of the chained commands the empty buffer and one answered with an error (`LEN = 17`). -/
theorem witness_UnchainedCommandsRepeat :
    (∃ t, exec (.makeKey false 16 16) (s51With p12) = .next t) ∧ (Instr.makeKey false 16 16).chained = false ∧
    (nextOf (exec .decryptCfb (s51With []))).map (fun t => t.chain) = some (s51With []).chain ∧
    (s51With []).cur.len = 0 ∧
    (nextOf (exec .encryptCbc (s51With (zeros 17)))).map (fun t => (t.chain, t.responses)) =
      some ((s51With (zeros 17)).chain, [⟨3, 0, []⟩]) ∧
    (s51With (zeros 17)).cur.len ≠ 0 ∧ Instr.encryptCbc.chained = true :=
  ⟨isNext (by decide +kernel), by decide, by decide +kernel, by decide +kernel, by decide +kernel, by decide +kernel,
    by decide⟩

theorem witness_KeyMaterialIsNotReadAfterExpansion : ∃ t, step (presented s51 0x00000004 32 p12) = .next t :=
  isNext (by decide +kernel)

/-- A reset of a keyed engine, and the first `MAKEKEY`. -/
theorem witness_KeyInitChangesOnlyByMakeKeyAndReset :
    (nextOf (step { s51 with inputs := [.reset] })).map (fun t => (s51.keyInit, t.keyInit)) = some (true, false) ∧
    (after State.reset 0x00202041 0 (zeros 32)).map (fun t => (State.reset.keyInit, t.keyInit)) =
      some (false, true) := by
  decide +kernel

theorem witness_EveryStepKeepsTheSessionInvariant :
    (presented s51 0x00000014 32 p12).Inv ∧ (∃ t, step (presented s51 0x00000014 32 p12) = .next t) :=
  ⟨by decide +kernel, isNext (by decide +kernel)⟩

/-- Two unkeyed engines with different registers; both then become keyed. -/
theorem witness_UnkeyedRegistersAreNeverObservable :
    (presented State.reset 0x00101041 0 (zeros 16)).keyInit = false ∧
    ({ presented { s51 with keyInit := false } 0x00101041 0 (zeros 16) with cur := ⟨1, 2, [3]⟩ } : State).keyInit =
      false ∧
    (presented { s51 with keyInit := false } 0x00101041 0 (zeros 16)).inputs =
      (presented State.reset 0x00101041 0 (zeros 16)).inputs ∧
    s51.responses = State.reset.responses ∧
    (∃ t, Sys2Proof.core.run 1 (presented State.reset 0x00101041 0 (zeros 16)) = .next t) :=
  ⟨by decide, by decide +kernel, by decide +kernel, by decide +kernel, isNext (by decide +kernel)⟩

/-- Runs that perform a command, reset and idle; a command that is answered and one that is refused; a row of two. -/
theorem witness_InstancesDoNotInterfere :
    (∃ t, Sys2Proof.core.run 3 { s51 with inputs := [.command ⟨0x00000014, 32, p12⟩, .reset] } = .next t) ∧
    (presented s51 0x00000014 32 p12).inputs = [.command ⟨0x00000014, 32, p12⟩] ∧
    (∃ t, step (presented s51 0x00000014 32 p12) = .next t) ∧
    step (presented s51 0x00000002 0 (zeros 24)) = .refused .malformedTransaction ∧
    (0 : Nat) ≠ 1 ∧
    (∃ one, stepInstance 0 [presented s51 0x00000014 32 p12, presented State.reset 0x00000008 0 []] = .next one ∧
      ∃ both, stepInstance 1 one = .next both) := by
  refine ⟨isNext (by decide +kernel), by decide, isNext (by decide +kernel), test_malformed, by decide, ?_⟩
  obtain ⟨t, ht⟩ : ∃ t, step (presented s51 0x00000014 32 p12) = .next t := isNext (by decide +kernel)
  obtain ⟨u, hu⟩ : ∃ u, step (presented State.reset 0x00000008 0 []) = .next u := isNext (by decide +kernel)
  exact ⟨[t, presented State.reset 0x00000008 0 []], by
    simp only [stepInstance, List.getElem?_cons_zero, ht]; rfl, [t, u], by
    simp only [stepInstance, List.getElem?_cons_succ, List.getElem?_cons_zero, hu]; rfl⟩

end Sys2Proof.Tests
end

section
/-!
PROOFS. The scope of a step (spec 00_scope.md R6): one equation per host action, and what the port's word makes of
an accepted transaction.
-/

namespace Sys2Proof.Machine

/-- With no action waiting the engine idles (R6, R311). -/
theorem step_of_idle {s : State} (h : s.inputs = []) : step s = .next s := by
  simp only [step, h]

/-- A waiting reset gives a fresh instance at the same port (R310). -/
theorem step_of_reset {s : State} {rest : List HostAction} (h : s.inputs = .reset :: rest) :
    step s = .next (s.hostReset rest) := by
  simp only [step, h]

/-- A waiting command is accepted at the port and performed in the same step (R6, R69). -/
theorem step_of_command {s : State} {tr : Transaction} {rest : List HostAction}
    (h : s.inputs = .command tr :: rest) : step s = (s.accept tr rest).perform := by
  simp only [step, h]

/-- A legal word runs its command (R88). -/
theorem perform_of_legal {s : State} {i : Instr} (h : decode s.cur.cmd = .legal i) : s.perform = exec i s := by
  simp only [State.perform, h]

/-- An illegal word raises `InvalidCommand` before any other check (R88, R278). -/
theorem perform_of_illegal {s : State} {why} (h : decode s.cur.cmd = .illegal why) :
    s.perform = raise .invalidCommand s := by
  simp only [State.perform, h]

end Sys2Proof.Machine

namespace Sys2Proof.Proofs

open Sys2Proof.Machine

/-- Settles O7: the step accepts the transaction, and the word that is then latched is the one that decodes to `i`. -/
theorem stepRunsTheDecodedCommand : Obligations.StepRunsTheDecodedCommand := by
  intro s tr rest i hinputs hdecode
  have hlatched : decode (s.accept tr rest).cur.cmd = .legal i := by rw [State.accept_cur, hdecode]
  calc step s
    _ = (s.accept tr rest).perform := step_of_command hinputs
    _ = exec i (s.accept tr rest) := perform_of_legal hlatched
    _ = exec i { s with cur := tr, inputs := rest } := rfl

/-- Settles O8: a step with no action waiting is the idle step. -/
theorem idleStepChangesNothing : Obligations.IdleStepChangesNothing :=
  fun _ => step_of_idle

end Sys2Proof.Proofs
end

section
/-!
PROOFS. The state family (spec 10_state.md): the session invariant of R34 and the write map of R35, both read off
what a command can do.
-/

namespace Sys2Proof.Machine

/-! ## The session invariant -/

/-- A response changes no register, so it keeps the invariant. -/
theorem State.Inv.respond {s : State} (h : s.Inv) (r : Response) : (s.respond r).Inv := h

/-- Accepting a transaction changes no register, so it keeps the invariant. -/
theorem State.Inv.accept {s : State} (h : s.Inv) (tr : Transaction) (rest : List HostAction) :
    (s.accept tr rest).Inv := h

/-- A new Chain Register of the block's length keeps the invariant (R28). -/
theorem State.Inv.setChain {s : State} (h : s.Inv) {c : List Byte} (hc : s.InSession → c.length = s.bs) :
    State.Inv { s with chain := c } := by
  intro hkeyed
  have hlen := hc (h hkeyed)
  obtain ⟨hkl, hbs, hnr, hkey, hw, hchain0, -⟩ := h hkeyed
  exact ⟨hkl, hbs, hnr, hkey, hw, hchain0, hlen⟩

theorem keyOperand_length {z : Bool} {kl bs : Nat} {din : List Byte} (hdin : din.length = makeKeyDinLength z kl bs) :
    (keyOperand din kl).length = kl := by
  cases z <;> simp [keyOperand, hdin, makeKeyDinLength]

/-- The chain-init is one block, whether it comes from `DIN` or from `sm_chain0` (R27, R33). -/
theorem chainInitOperand_length {z : Bool} {kl bs : Nat} {din : List Byte} (hbs : bs ≤ Config.maxBlockSize)
    (hdin : din.length = makeKeyDinLength z kl bs) : (chainInitOperand z din kl bs).length = bs := by
  cases z
  · simp [chainInitOperand, hdin, makeKeyDinLength]
  · simp [chainInitOperand, Config.smChain0, hbs]

/-- The registers that a successful `MAKEKEY` writes belong to one session (R34, R158). -/
theorem State.establish_inSession (s : State) {kl bs : Nat} {key chainInit : List Byte} (hkl : SizeOk kl)
    (hbs : SizeOk bs) (hkey : key.length = kl) (hchain : chainInit.length = bs) :
    (s.establish kl bs key chainInit).InSession := by
  have ekl : (BitVec.ofNat 8 kl).toNat = kl := by rw [BitVec.toNat_ofNat]; omega
  have ebs : (BitVec.ofNat 8 bs).toNat = bs := by rw [BitVec.toNat_ofNat]; omega
  have enr : (BitVec.ofNat 8 (roundCount kl bs)).toNat = max (kl / 4) (bs / 4) + 6 := by
    rw [BitVec.toNat_ofNat, roundCount]; omega
  simp only [State.InSession, State.establish_keylen, State.establish_blksize, State.establish_rounds,
    State.establish_key, State.establish_w, State.establish_chain0, State.establish_chain, ekl, ebs, enr]
  exact ⟨hkl, hbs, trivial, hkey, trivial, hchain, hchain⟩

/-- A chained command is the loop of its mode, and in a session one block of it leaves a whole block in `CHAIN`
(R223, R224, R226, R227). -/
theorem exec_of_chained {i : Instr} (hi : i.chained = true) (s : State) :
    ∃ f : ChainStep, exec i s = runChained f s ∧
      (s.InSession → ∀ b c, b.length = s.bs → c.length = s.bs → (f b c).2.length = s.bs) := by
  cases i with
  | encryptCbc =>
    exact ⟨s.cbcEncryptStep, rfl, fun hs b c hb hc => hs.cipher_length (by simp [hb, hc])⟩
  | encryptCfb =>
    exact ⟨s.cfbEncryptStep, rfl, fun hs b c hb hc => by simp [State.cfbEncryptStep, hs.cipher_length hc, hb]⟩
  | decryptCbc => exact ⟨s.cbcDecryptStep, rfl, fun _ _ _ hb _ => hb⟩
  | decryptCfb => exact ⟨s.cfbDecryptStep, rfl, fun _ _ _ hb _ => hb⟩
  | _ => cases hi

/-- A chained loop whose every block leaves a whole block in `CHAIN` keeps the invariant. -/
theorem runChained_keeps_inv {f : ChainStep} {s t : State}
    (hf : s.InSession → ∀ b c, b.length = s.bs → c.length = s.bs → (f b c).2.length = s.bs) (hinv : s.Inv)
    (h : runChained f s = .next t) : t.Inv := by
  rcases withBuffer_eq_next h with ⟨-, -, hdin, h⟩ | ⟨-, rfl⟩ | ⟨-, -, rfl⟩
  · obtain rfl := succeed_eq_next_iff.1 h
    refine State.Inv.respond (hinv.setChain fun hs => ?_) _
    have hblock : ∀ b ∈ s.inputBlocks, ∀ c, c.length = s.bs → True ∧ (f b c).2.length = s.bs :=
      fun b hb c hc => ⟨trivial, hf hs b c (inputBlocks_length hdin b hb) hc⟩
    obtain ⟨-, -, -, -, -, -, hchain⟩ := hs
    exact (chainLoop_preserves (Q := fun _ => True) s.inputBlocks s.chain hblock hchain).2
  · exact hinv.respond _
  · exact hinv.respond _

/-- Every command keeps the session invariant (R34). -/
theorem exec_keeps_inv {i : Instr} {s t : State} (hinv : s.Inv) (h : exec i s = .next t) : t.Inv := by
  by_cases hi : i.chained = true
  · obtain ⟨f, hexec, hf⟩ := exec_of_chained hi s
    exact runChained_keeps_inv hf hinv (hexec ▸ h)
  · rcases exec_eq_next h with ⟨e, rfl⟩ | ⟨z, kl, bs, -, hkl, hbs, hdin, rfl⟩ | ⟨v, d, -, rfl⟩ |
      ⟨-, -, hchained, -⟩ | ⟨-, -, rfl⟩
    · exact hinv.respond _
    · refine State.Inv.respond (fun _ => ?_) _
      exact s.establish_inSession hkl hbs (keyOperand_length hdin)
        (chainInitOperand_length (by simp only [Config.maxBlockSize]; omega) hdin)
    · exact hinv.respond _
    · exact absurd hchained hi
    · refine State.Inv.respond (hinv.setChain fun hs => ?_) _
      obtain ⟨-, -, -, -, -, hchain0, -⟩ := hs
      exact hchain0

/-- Performing an accepted transaction keeps the session invariant (R34). -/
theorem perform_keeps_inv {s t : State} (hinv : s.Inv) (h : s.perform = .next t) : t.Inv := by
  rcases perform_eq_next h with ⟨i, -, h⟩ | ⟨why, -, rfl⟩
  · exact exec_keeps_inv hinv h
  · exact hinv.respond _

/-- An unkeyed engine meets the invariant, which speaks of keyed ones only (R34). -/
theorem State.Inv.of_unkeyed {s : State} (h : s.keyInit = false) : s.Inv :=
  fun hkeyed => absurd (h.symm.trans hkeyed) Bool.false_ne_true

/-! ## What a command writes -/

/-- An empty buffer has no block (R56). -/
theorem State.inputBlocks_of_empty {s : State} (h : s.cur.len = 0) : s.inputBlocks = [] := by
  simp [State.inputBlocks, State.n, h]

/-- A command keeps `KEY_INIT`, or it is a `MAKEKEY` with supported sizes and sets it (R21, R283). -/
theorem exec_keyInit {i : Instr} {s t : State} (h : exec i s = .next t) :
    t.keyInit = s.keyInit ∨
    (t.keyInit = true ∧ ∃ z kl bs, i = .makeKey z kl bs ∧ SizeOk kl ∧ SizeOk bs) := by
  rcases exec_eq_next h with ⟨e, rfl⟩ | ⟨z, kl, bs, hi, hkl, hbs, -, rfl⟩ | ⟨v, d, -, rfl⟩ | ⟨f, d, -, -, rfl⟩ |
    ⟨-, -, rfl⟩
  · exact .inl rfl
  · exact .inr ⟨rfl, z, kl, bs, hi, hkl, hbs⟩
  · exact .inl rfl
  · exact .inl rfl
  · exact .inl rfl

/-- A step other than the host's reset keeps `KEY_INIT`, or it runs a `MAKEKEY` with supported sizes and sets it. -/
theorem step_keyInit {s t : State} (h : step s = .next t) :
    t.keyInit = s.keyInit ∨ (∃ rest, s.inputs = .reset :: rest ∧ t.keyInit = false) ∨
    (t.keyInit = true ∧ ∃ tr rest z kl bs, s.inputs = .command tr :: rest ∧
      decode tr.cmd = .legal (.makeKey z kl bs) ∧ SizeOk kl ∧ SizeOk bs) := by
  rcases step_eq_next h with ⟨-, rfl⟩ | ⟨rest, hin, rfl⟩ | ⟨tr, rest, hin, h⟩
  · exact .inl rfl
  · exact .inr (.inl ⟨rest, hin, rfl⟩)
  · rcases perform_eq_next h with ⟨i, hi, h⟩ | ⟨why, -, rfl⟩
    · rcases exec_keyInit h with hkeep | ⟨hset, z, kl, bs, rfl, hkl, hbs⟩
      · exact .inl hkeep
      · exact .inr (.inr ⟨hset, tr, rest, z, kl, bs, hin, hi, hkl, hbs⟩)
    · exact .inl rfl

end Sys2Proof.Machine

namespace Sys2Proof.Proofs

open Sys2Proof.Machine

/-- Settles O58: `MAKEKEY` establishes a session, a chained command and `RESETCHAIN` put a block of the session's
length into `CHAIN`, a reset leaves the engine unkeyed, and nothing else writes a register. -/
theorem everyStepKeepsTheSessionInvariant : Obligations.EveryStepKeepsTheSessionInvariant := by
  intro s t hinv h
  rcases step_eq_next h with ⟨-, rfl⟩ | ⟨rest, -, rfl⟩ | ⟨tr, rest, -, h⟩
  · exact hinv
  · exact .of_unkeyed rfl
  · exact perform_keeps_inv (hinv.accept tr rest) h

/-- Settles O57: the reset state is unkeyed. -/
theorem sessionInvariantHoldsAtReset : Obligations.SessionInvariantHoldsAtReset :=
  ⟨.of_unkeyed rfl, rfl⟩

/-- Settles O9: the reset action is performed by the very next step. -/
theorem hostResetGivesAnUnkeyedInstance : Obligations.HostResetGivesAnUnkeyedInstance :=
  ⟨rfl, fun s rest hin => ⟨s.hostReset rest, step_of_reset hin, rfl, rfl, rfl⟩⟩

/-- Settles O52, case by case of what a command can do; a chained command with an empty buffer runs over no block. -/
theorem commandsWriteOnlyTheirRegisters : Obligations.CommandsWriteOnlyTheirRegisters := by
  intro s t i h
  rcases exec_eq_next h with ⟨e, rfl⟩ | ⟨z, kl, bs, rfl, -, -, -, rfl⟩ | ⟨v, d, -, rfl⟩ |
    ⟨f, d, hchained, -, rfl⟩ | ⟨rfl, -, rfl⟩
  · exact ⟨rfl, rfl, fun _ => ⟨rfl, rfl, rfl, rfl, rfl, rfl, rfl⟩, fun _ _ _ => rfl⟩
  · exact ⟨rfl, rfl, nofun, nofun⟩
  · exact ⟨rfl, rfl, fun _ => ⟨rfl, rfl, rfl, rfl, rfl, rfl, rfl⟩, fun _ _ _ => rfl⟩
  · refine ⟨rfl, rfl, fun _ => ⟨rfl, rfl, rfl, rfl, rfl, rfl, rfl⟩, fun _ hempty _ => ?_⟩
    have hlen : s.cur.len = 0 := by
      by_contra hlen
      exact hempty ⟨hchained, hlen⟩
    rw [State.respond_chain, s.inputBlocks_of_empty hlen, chainLoop_nil]
  · exact ⟨rfl, rfl, fun _ => ⟨rfl, rfl, rfl, rfl, rfl, rfl, rfl⟩, fun _ _ hne => absurd rfl hne⟩

/-- Settles O56: of the three ways a step can treat `KEY_INIT`, only the reset clears it and only `MAKEKEY` sets it. -/
theorem keyInitChangesOnlyByMakeKeyAndReset : Obligations.KeyInitChangesOnlyByMakeKeyAndReset := by
  intro s t h
  rcases step_keyInit h with hkeep | ⟨rest, hin, hclear⟩ | ⟨hset, hmake⟩
  · exact ⟨fun hs ht => by simp [hkeep, hs] at ht, fun hs ht => by simp [hkeep, hs] at ht⟩
  · exact ⟨fun _ _ => ⟨rest, hin⟩, fun _ ht => by simp [hclear] at ht⟩
  · exact ⟨fun _ ht => by simp [hset] at ht, fun _ _ => hmake⟩

end Sys2Proof.Proofs
end

section
/-!
PROOFS. What a command reads: two states that a command reads alike are answered alike. From it, KEY is not read after
the expansion (spec 10_state.md R25), and no register is read while `KEY_INIT = 0` (R36).
-/

namespace Sys2Proof.Machine

/-- Two results of one kind: both refusals, for one reason, or both next states, related by `R`. (No result is a
fault.) -/
inductive Alike (R : State → State → Prop) : Result → Result → Prop where
  | next {t t' : State} (h : R t t') : Alike R (.next t) (.next t')
  | refused (why : Refusal) : Alike R (.refused why) (.refused why)

namespace Alike

variable {R : State → State → Prop} {s s' : State}

theorem refl (hR : ∀ t, R t t) : ∀ r : Result, Alike R r r
  | .next t => .next (hR t)
  | .refused why => .refused why

/-- What the second result is when the first is a next state. -/
theorem exists_next {r r' : Result} {t : State} (h : Alike R r r') (hr : r = .next t) :
    ∃ t', r' = .next t' ∧ R t t' := by
  cases h with
  | next h => cases hr; exact ⟨_, rfl, h⟩
  | refused why => cases hr

/-- What the second result is when the first is a refusal. -/
theorem refused_of {r r' : Result} {why : Refusal} (h : Alike R r r') (hr : r = .refused why) : r' = .refused why := by
  cases h with
  | next h => cases hr
  | refused why => exact hr

/-! The shared operations, each from what it reads. -/

theorem raise (hrespond : ∀ r, R (s.respond r) (s'.respond r)) (e : Status) :
    Alike R (Machine.raise e s) (Machine.raise e s') := .next (hrespond _)

theorem succeed (hrespond : ∀ r, R (s.respond r) (s'.respond r)) (v : BitVec 32) (d : List Byte) :
    Alike R (Machine.succeed v d s) (Machine.succeed v d s') := .next (hrespond _)

theorem withKey {k k' : Result} (hkey : s'.keyInit = s.keyInit) (hrespond : ∀ r, R (s.respond r) (s'.respond r))
    (hk : Alike R k k') : Alike R (Machine.withKey s k) (Machine.withKey s' k') := by
  cases h : s.keyInit
  · rw [withKey_of_unkeyed h, withKey_of_unkeyed (hkey.trans h)]
    exact raise hrespond _
  · rwa [withKey_of_keyed h, withKey_of_keyed (hkey.trans h)]

theorem withWholeBlocks {k k' : Result} (hn : s'.n = s.n) (hbs : s'.bs = s.bs)
    (hrespond : ∀ r, R (s.respond r) (s'.respond r)) (hk : Alike R k k') :
    Alike R (Machine.withWholeBlocks s k) (Machine.withWholeBlocks s' k') := by
  by_cases h : s.n % s.bs = 0
  · rwa [withWholeBlocks_of_aligned h, withWholeBlocks_of_aligned (by rwa [hn, hbs])]
  · rw [withWholeBlocks_of_misaligned h, withWholeBlocks_of_misaligned (by rwa [hn, hbs])]
    exact raise hrespond _

theorem withDin {k k' : Result} (hcur : s'.cur = s.cur) (m : Nat) (hk : Alike R k k') :
    Alike R (Machine.withDin s m k) (Machine.withDin s' m k') := by
  by_cases h : s.cur.din.length = m
  · rwa [withDin_of_length h, withDin_of_length (by rwa [hcur])]
  · rw [withDin_of_wrong_length h, withDin_of_wrong_length (by rwa [hcur])]
    exact .refused _

end Alike

/-- The registers that commands read, and the transaction, are the same in both states: all but `KEY` and what the
port holds besides. -/
structure State.ReadsAs (s' s : State) : Prop where
  keyInit : s'.keyInit = s.keyInit
  keylen : s'.keylen = s.keylen
  blksize : s'.blksize = s.blksize
  rounds : s'.rounds = s.rounds
  w : s'.w = s.w
  chain0 : s'.chain0 = s.chain0
  chain : s'.chain = s.chain
  cur : s'.cur = s.cur

namespace State.ReadsAs

variable {s s' : State} (h : s'.ReadsAs s)
include h

theorem bs : s'.bs = s.bs := by simp only [State.bs, h.blksize]
theorem n : s'.n = s.n := by simp only [State.n, h.cur]
theorem inputBlocks : s'.inputBlocks = s.inputBlocks := by simp only [State.inputBlocks, h.bs, h.n, h.cur]
theorem cipher : s'.cipher = s.cipher := State.cipher_eq_of_registers h.w h.blksize h.rounds
theorem invCipher : s'.invCipher = s.invCipher := State.invCipher_eq_of_registers h.w h.blksize h.rounds
theorem cbcEncryptStep : s'.cbcEncryptStep = s.cbcEncryptStep := by
  funext b c
  simp only [State.cbcEncryptStep, h.cipher]
theorem cfbEncryptStep : s'.cfbEncryptStep = s.cfbEncryptStep := by
  funext b c
  simp only [State.cfbEncryptStep, h.cipher]
theorem cbcDecryptStep : s'.cbcDecryptStep = s.cbcDecryptStep := by
  funext b c
  simp only [State.cbcDecryptStep, h.invCipher]
theorem cfbDecryptStep : s'.cfbDecryptStep = s.cfbDecryptStep := by
  funext b c
  simp only [State.cfbDecryptStep, h.cipher]

end State.ReadsAs

section Congruence

variable {R : State → State → Prop} {s s' : State} (hrespond : ∀ r, R (s.respond r) (s'.respond r))
include hrespond

/-- `MAKEKEY` reads only its operands (R158, R159). -/
theorem execMakeKey_alike (hcur : s'.cur = s.cur)
    (hestablish : ∀ kl bs key ci r,
      R ((s.establish kl bs key ci).respond r) ((s'.establish kl bs key ci).respond r))
    (z : Bool) (kl bs : Nat) : Alike R (execMakeKey z kl bs s) (execMakeKey z kl bs s') := by
  by_cases hk : keylenSupported kl
  · by_cases hb : blksizeSupported bs
    · simp only [execMakeKey, hk, hb, if_true, hcur]
      exact .withDin hcur _ (.succeed (hestablish _ _ _ _) _ _)
    · simp only [execMakeKey, hk, hb, if_true]
      exact .raise hrespond _
  · simp only [execMakeKey, hk]
    exact .raise hrespond _

variable (h : s'.ReadsAs s)
include h

theorem withBuffer_alike {k k' : Result} (hk : Alike R k k') : Alike R (withBuffer s k) (withBuffer s' k') := by
  simp only [withBuffer, h.n]
  exact .withKey h.keyInit hrespond (.withWholeBlocks h.n h.bs hrespond (.withDin h.cur _ hk))

/-- An ECB command reads its block function and its buffer. -/
theorem runEcb_alike {f f' : List Byte → List Byte} (hf : f' = f) : Alike R (runEcb f s) (runEcb f' s') := by
  subst hf
  simp only [runEcb, h.inputBlocks]
  exact withBuffer_alike hrespond h (.succeed hrespond _ _)

theorem readRegister_alike {v v' : BitVec 8} (hv : v' = v) : Alike R (readRegister v s) (readRegister v' s') := by
  subst hv
  exact .withKey h.keyInit hrespond (.withDin h.cur _ (.succeed hrespond _ _))

variable (hchain : ∀ c r, R (State.respond { s with chain := c } r) (State.respond { s' with chain := c } r))
include hchain

/-- A chained command reads its step, its buffer and `CHAIN`. -/
theorem runChained_alike {f f' : ChainStep} (hf : f' = f) : Alike R (runChained f s) (runChained f' s') := by
  subst hf
  simp only [runChained, h.inputBlocks, h.chain]
  exact withBuffer_alike hrespond h (.succeed (hchain _) _ _)

/-- A command reads nothing besides the registers of `ReadsAs`: states that agree on those are answered alike, for
every relation `R` that the three kinds of state write (R35) establish. -/
theorem exec_alike
    (hestablish : ∀ kl bs key ci r,
      R ((s.establish kl bs key ci).respond r) ((s'.establish kl bs key ci).respond r)) (i : Instr) :
    Alike R (exec i s) (exec i s') := by
  cases i with
  | makeKey z kl bs => exact execMakeKey_alike hrespond h.cur hestablish z kl bs
  | encryptBlock =>
    simp only [exec, execEncryptBlock, h.bs, h.cur, h.cipher]
    exact .withKey h.keyInit hrespond (.withDin h.cur _ (.succeed hrespond _ _))
  | decryptBlock =>
    simp only [exec, execDecryptBlock, h.bs, h.cur, h.invCipher]
    exact .withKey h.keyInit hrespond (.withDin h.cur _ (.succeed hrespond _ _))
  | encryptEcb => exact runEcb_alike hrespond h h.cipher
  | decryptEcb => exact runEcb_alike hrespond h h.invCipher
  | encryptCbc => exact runChained_alike hrespond h hchain h.cbcEncryptStep
  | encryptCfb => exact runChained_alike hrespond h hchain h.cfbEncryptStep
  | decryptCbc => exact runChained_alike hrespond h hchain h.cbcDecryptStep
  | decryptCfb => exact runChained_alike hrespond h hchain h.cfbDecryptStep
  | getKeyLength => exact readRegister_alike hrespond h h.keylen
  | getBlockSize => exact readRegister_alike hrespond h h.blksize
  | getRounds => exact readRegister_alike hrespond h h.rounds
  | resetChain =>
    have e : ({ s' with chain := s'.chain0 } : State) = { s' with chain := s.chain0 } :=
      congrArg (fun c => ({ s' with chain := c } : State)) h.chain0
    simp only [exec, execResetChain, e]
    exact .withKey h.keyInit hrespond (.withDin h.cur _ (.succeed (hchain _) _ _))

end Congruence

/-- Performing one transaction in two states goes alike when raising an error and running a command do. -/
theorem perform_alike {R : State → State → Prop} {s s' : State} (hcur : s'.cur = s.cur)
    (hrespond : ∀ r, R (s.respond r) (s'.respond r)) (hexec : ∀ i, Alike R (exec i s) (exec i s')) :
    Alike R s.perform s'.perform := by
  cases hd : decode s.cur.cmd with
  | legal i =>
    rw [perform_of_legal hd, perform_of_legal (hcur ▸ hd)]
    exact hexec i
  | illegal why =>
    rw [perform_of_illegal hd, perform_of_illegal (hcur ▸ hd)]
    exact .raise hrespond _

/-- One step from two states with the same host goes alike when the three kinds of step do. -/
theorem step_alike {R : State → State → Prop} {s s' : State} (hin : s'.inputs = s.inputs) (hidle : R s s')
    (hreset : ∀ rest, R (s.hostReset rest) (s'.hostReset rest))
    (hperform : ∀ tr rest, Alike R (s.accept tr rest).perform (s'.accept tr rest).perform) :
    Alike R (step s) (step s') := by
  cases h : s.inputs with
  | nil =>
    rw [step_of_idle h, step_of_idle (hin.trans h)]
    exact .next hidle
  | cons action rest =>
    cases action with
    | reset =>
      rw [step_of_reset h, step_of_reset (hin.trans h)]
      exact .next (hreset rest)
    | command tr =>
      rw [step_of_command h, step_of_command (hin.trans h)]
      exact hperform tr rest

/-- A run begins with one step. -/
theorem run_succ_of_step {s t : State} (h : step s = .next t) (k : Nat) :
    Sys2Proof.core.run (k + 1) s = Sys2Proof.core.run k t := by
  simp only [Host.Core.run, Sys2Proof.core, h]

/-- A run ends with the first refused step. -/
theorem run_succ_of_refused {s : State} {why : Refusal} (h : step s = .refused why) (k : Nat) :
    Sys2Proof.core.run (k + 1) s = .refused why := by
  simp only [Host.Core.run, Sys2Proof.core, h]

/-- A relation that every step keeps, every run keeps. -/
theorem run_alike {R : State → State → Prop} (hstep : ∀ s s', R s s' → Alike R (step s) (step s')) (k : Nat) :
    ∀ s s' : State, R s s' → Alike R (Sys2Proof.core.run k s) (Sys2Proof.core.run k s') := by
  induction k with
  | zero => exact fun s s' h => .next h
  | succ k ih =>
    intro s s' h
    have halike := hstep s s' h
    cases hs : step s with
    | next t =>
      obtain ⟨t', hs', ht⟩ := halike.exists_next hs
      rw [run_succ_of_step hs, run_succ_of_step hs']
      exact ih t t' ht
    | fault f => exact absurd hs (not_fault _ f)
    | refused why =>
      rw [run_succ_of_refused hs, run_succ_of_refused (halike.refused_of hs)]
      exact .refused why

/-! ## The key material -/

/-- The second state is the first but for the bytes in `KEY`. -/
def State.DiffersInKey (s s' : State) : Prop := ∃ other, s' = { s with key := other }

theorem State.DiffersInKey.refl (s : State) : s.DiffersInKey s := ⟨s.key, rfl⟩

/-- With other bytes in `KEY` a command goes the same way (R25). -/
theorem exec_setKey_alike (s : State) (other : List Byte) (i : Instr) :
    Alike State.DiffersInKey (exec i s) (exec i { s with key := other }) := by
  apply exec_alike
  case hrespond => exact fun r => ⟨other, rfl⟩
  case h => exact ⟨rfl, rfl, rfl, rfl, rfl, rfl, rfl, rfl⟩
  case hchain => exact fun c r => ⟨other, rfl⟩
  case hestablish => exact fun kl bs key ci r => .refl _

/-- With other bytes in `KEY` a step goes the same way (R25). -/
theorem step_setKey_alike (s : State) (other : List Byte) :
    Alike State.DiffersInKey (step s) (step { s with key := other }) := by
  apply step_alike
  case hin => rfl
  case hidle => exact ⟨other, rfl⟩
  case hreset => exact fun rest => .refl _
  case hperform => exact fun tr rest => perform_alike rfl (fun r => ⟨other, rfl⟩) (exec_setKey_alike _ other)

/-! ## Unkeyed engines -/

/-- The two engines are one, or both are unkeyed and at the same port but for what their latches hold. -/
def State.SameOrUnkeyed (s s' : State) : Prop :=
  s' = s ∨ (s.keyInit = false ∧ s'.keyInit = false ∧ s'.inputs = s.inputs ∧ s'.responses = s.responses)

theorem State.SameOrUnkeyed.refl (s : State) : s.SameOrUnkeyed s := .inl rfl

/-- Unkeyed, every command but `MAKEKEY` raises `KeyNotInitialized` (R275). -/
theorem exec_of_unkeyed {i : Instr} {s : State} (hs : s.keyInit = false) (hi : i.isMakeKey = false) :
    exec i s = raise .keyNotInitialized s := by
  cases i with
  | makeKey z kl bs => cases hi
  | _ => exact withKey_of_unkeyed hs _

/-- A reset leaves every register at its reset value, so what it leaves is fixed by the port (R310). -/
theorem State.hostReset_eq_of_responses {s s' : State} (hresp : s'.responses = s.responses) (rest : List HostAction) :
    s'.hostReset rest = s.hostReset rest := by
  simp only [State.hostReset, hresp]

section Unkeyed

variable {s s' : State} (hs : s.keyInit = false) (hs' : s'.keyInit = false) (hin : s'.inputs = s.inputs)
  (hresp : s'.responses = s.responses)
include hin hresp

/-- `MAKEKEY` writes every register (R160, R315), so what it leaves is fixed by its operands and the port. -/
theorem State.establish_eq_of_port (hcur : s'.cur = s.cur) (kl bs : Nat) (key chainInit : List Byte) :
    s'.establish kl bs key chainInit = s.establish kl bs key chainInit := by
  simp only [State.establish, hcur, hin, hresp]

include hs hs'

theorem State.respond_sameOrUnkeyed (r : Response) : State.SameOrUnkeyed (s.respond r) (s'.respond r) :=
  .inr ⟨hs, hs', hin, by rw [State.respond_responses, State.respond_responses, hresp]⟩

/-- Unkeyed, a command reads its operands only: `MAKEKEY` reads no register, and the others raise an error. -/
theorem exec_unkeyed_alike (hcur : s'.cur = s.cur) (i : Instr) :
    Alike State.SameOrUnkeyed (exec i s) (exec i s') := by
  have hrespond := State.respond_sameOrUnkeyed hs hs' hin hresp
  cases hi : i.isMakeKey
  · rw [exec_of_unkeyed hs hi, exec_of_unkeyed hs' hi]
    exact .raise hrespond _
  · cases i with
    | makeKey z kl bs =>
      refine execMakeKey_alike hrespond hcur (fun kl bs key ci r => ?_) z kl bs
      rw [State.establish_eq_of_port hin hresp hcur]
      exact .refl _
    | _ => cases hi

/-- Unkeyed, a step reads the host's actions only (R36). -/
theorem step_unkeyed_alike : Alike State.SameOrUnkeyed (step s) (step s') := by
  apply step_alike hin
  case hidle => exact .inr ⟨hs, hs', hin, hresp⟩
  case hreset =>
    intro rest
    rw [State.hostReset_eq_of_responses hresp]
    exact .refl _
  case hperform =>
    intro tr rest
    exact perform_alike rfl (State.respond_sameOrUnkeyed hs hs' rfl hresp) (exec_unkeyed_alike hs hs' rfl hresp rfl)

end Unkeyed

/-- Two engines that are one or both unkeyed stay so: an unkeyed one becomes keyed by `MAKEKEY` alone, which leaves
nothing of what the registers held. -/
theorem step_sameOrUnkeyed_alike (s s' : State) (h : s.SameOrUnkeyed s') :
    Alike State.SameOrUnkeyed (step s) (step s') := by
  rcases h with rfl | ⟨hs, hs', hin, hresp⟩
  · exact .refl .refl _
  · exact step_unkeyed_alike hs hs' hin hresp

end Sys2Proof.Machine

namespace Sys2Proof.Proofs

open Sys2Proof.Machine

/-- Settles O55: no step reads `KEY`, so the two states after it differ in `KEY` at most. -/
theorem keyMaterialIsNotReadAfterExpansion : Obligations.KeyMaterialIsNotReadAfterExpansion := by
  intro s t other h
  obtain ⟨t', hstep, _, rfl⟩ := (step_setKey_alike s other).exists_next h
  exact ⟨_, hstep, rfl⟩

/-- Settles O59, by induction on the steps: the two engines are both unkeyed until one `MAKEKEY` makes them one. -/
theorem unkeyedRegistersAreNeverObservable : Obligations.UnkeyedRegistersAreNeverObservable := by
  intro s s' t k hs hs' hin hresp hrun
  have halike := run_alike step_sameOrUnkeyed_alike k s s' (.inr ⟨hs, hs', hin, hresp⟩)
  obtain ⟨t', hrun', ht⟩ := halike.exists_next hrun
  refine ⟨t', hrun', ?_⟩
  rcases ht with rfl | ⟨ht, ht', -, htresp⟩
  · exact ⟨rfl, rfl, fun _ => rfl⟩
  · exact ⟨htresp, ht'.trans ht.symm, fun hkeyed => by simp [ht] at hkeyed⟩

end Sys2Proof.Proofs
end

section
/-!
PROOFS. The memory family (spec 20_memory.md): which transactions have a step (R51, R68), how a block fills the state
(R53), and that a command which moves no chain can be repeated (R62).
-/

namespace Sys2Proof.Machine

/-! ## The checks, then the length of `DIN` -/

theorem withBuffer_of_misaligned {s : State} (hk : s.keyInit = true) (ha : s.n % s.bs ≠ 0) (k : Result) :
    withBuffer s k = raise .invalidInputLength s := by
  rw [withBuffer, withKey_of_keyed hk, withWholeBlocks_of_misaligned ha]

/-- The two checks of R220 passed, the length of `DIN` decides. -/
theorem withBuffer_of_aligned {s : State} (hk : s.keyInit = true) (ha : s.n % s.bs = 0) (k : Result) :
    withBuffer s k = withDin s s.n k := by
  rw [withBuffer, withKey_of_keyed hk, withWholeBlocks_of_aligned ha]

/-- With both sizes supported, the length of `DIN` decides (R159, R68). -/
theorem execMakeKey_of_sizeOk {kl bs : Nat} (hkl : SizeOk kl) (hbs : SizeOk bs) (z : Bool) (s : State) :
    execMakeKey z kl bs s = withDin s (makeKeyDinLength z kl bs)
      (succeed 0 [] (s.establish kl bs (keyOperand s.cur.din kl) (chainInitOperand z s.cur.din kl bs))) := by
  rw [execMakeKey, if_pos (keylenSupported_iff.2 hkl), if_pos (blksizeSupported_iff.2 hbs)]

theorem execMakeKey_of_badKeyLength {kl : Nat} (hkl : ¬ SizeOk kl) (z : Bool) (bs : Nat) (s : State) :
    execMakeKey z kl bs s = raise .invalidKeyLength s := by
  rw [execMakeKey, if_neg (mt keylenSupported_iff.1 hkl)]

theorem execMakeKey_of_badBlockSize {kl bs : Nat} (hkl : SizeOk kl) (hbs : ¬ SizeOk bs) (z : Bool) (s : State) :
    execMakeKey z kl bs s = raise .invalidBlockSize s := by
  rw [execMakeKey, if_pos (keylenSupported_iff.2 hkl), if_neg (mt blksizeSupported_iff.1 hbs)]

/-- A keyed multi-block command of a broken length raises `InvalidInputLength` (R220, R274). -/
theorem exec_of_misaligned {i : Instr} {s : State} (hi : i.multiBlock = true) (hk : s.keyInit = true)
    (ha : s.n % s.bs ≠ 0) : exec i s = raise .invalidInputLength s := by
  cases i with
  | encryptEcb | encryptCbc | encryptCfb | decryptEcb | decryptCbc | decryptCfb =>
    exact withBuffer_of_misaligned hk ha _
  | _ => cases hi

/-- Every command but `MAKEKEY` has the checks of a session (R278 group 3). -/
theorem State.errorOf_of_session {i : Instr} (hi : i.isMakeKey = false) (s : State) :
    s.errorOf i = s.sessionError i.multiBlock := by
  cases i with
  | makeKey z kl bs => cases hi
  | _ => rfl

theorem State.errorOf_of_badKeyLength {kl : Nat} (hkl : ¬ SizeOk kl) (s : State) (z : Bool) (bs : Nat) :
    s.errorOf (.makeKey z kl bs) = some .invalidKeyLength := if_pos hkl

theorem State.errorOf_of_badBlockSize {kl bs : Nat} (hkl : SizeOk kl) (hbs : ¬ SizeOk bs) (s : State) (z : Bool) :
    s.errorOf (.makeKey z kl bs) = some .invalidBlockSize := by
  rw [State.errorOf, if_neg (not_not.2 hkl), if_pos hbs]

/-- The checks of `MAKEKEY` passed: both sizes are supported (R159). -/
theorem State.errorOf_makeKey_eq_none {s : State} {z : Bool} {kl bs : Nat}
    (h : s.errorOf (.makeKey z kl bs) = none) : SizeOk kl ∧ SizeOk bs := by
  by_cases hkl : SizeOk kl
  · by_cases hbs : SizeOk bs
    · exact ⟨hkl, hbs⟩
    · rw [State.errorOf_of_badBlockSize hkl hbs] at h; cases h
  · rw [State.errorOf_of_badKeyLength hkl] at h; cases h

/-- The error that `MAKEKEY` meets is what it answers (R159). -/
theorem execMakeKey_of_error {s : State} {z : Bool} {kl bs : Nat} {e : Status}
    (h : s.errorOf (.makeKey z kl bs) = some e) : execMakeKey z kl bs s = raise e s := by
  by_cases hkl : SizeOk kl
  · by_cases hbs : SizeOk bs
    · simp [State.errorOf, hkl, hbs] at h
    · obtain rfl := Option.some.inj ((State.errorOf_of_badBlockSize hkl hbs s z).symm.trans h)
      exact execMakeKey_of_badBlockSize hkl hbs z s
  · obtain rfl := Option.some.inj ((State.errorOf_of_badKeyLength hkl s z bs).symm.trans h)
    exact execMakeKey_of_badKeyLength hkl z bs s

/-- The checks of a session passed: the engine is keyed, and a multi-block buffer is whole blocks. -/
theorem State.sessionError_eq_none {s : State} {multiBlock : Bool} (h : s.sessionError multiBlock = none) :
    s.keyInit = true ∧ (multiBlock = true → s.n % s.bs = 0) := by
  unfold State.sessionError at h
  split_ifs at h with hk ha
  exact ⟨by simpa using hk, fun hm => by_contra fun hne => ha ⟨hm, hne⟩⟩

/-- The error a command meets is what it answers, whatever `DIN` holds (R270, R278). -/
theorem exec_of_error {i : Instr} {s : State} {e : Status} (h : s.errorOf i = some e) : exec i s = raise e s := by
  cases hi : i.isMakeKey
  · rw [State.errorOf_of_session hi, State.sessionError] at h
    split_ifs at h with hk hm <;> cases h
    · exact exec_of_unkeyed hk hi
    · exact exec_of_misaligned hm.1 (by simpa using hk) hm.2
  · cases i with
    | makeKey z kl bs => exact execMakeKey_of_error h
    | _ => cases hi

/-- A command that meets no error succeeds when `DIN` has the length of R51 (R68). -/
theorem exec_of_noError {i : Instr} {s : State} (h : s.errorOf i = none) :
    ∃ v d u, exec i s = withDin s (s.requiredDinLength s.cur.len.toNat i) (succeed v d u) := by
  cases hi : i.isMakeKey
  · rw [State.errorOf_of_session hi] at h
    obtain ⟨hk, ha⟩ := State.sessionError_eq_none h
    cases i with
    | makeKey z kl bs => cases hi
    | encryptEcb | encryptCbc | encryptCfb | decryptEcb | decryptCbc | decryptCfb =>
      exact ⟨_, _, _, withBuffer_of_aligned hk (ha rfl) _⟩
    | _ => exact ⟨_, _, _, withKey_of_keyed hk _⟩
  · cases i with
    | makeKey z kl bs =>
      obtain ⟨hkl, hbs⟩ := State.errorOf_makeKey_eq_none h
      exact ⟨_, _, _, execMakeKey_of_sizeOk hkl hbs z s⟩
    | _ => cases hi

/-! ## The block layout -/

/-- Whole words of bytes, but for none, begin with a word. -/
theorem exists_cons_word {b : List Byte} {nb : Nat} (h : b.length = 4 * (nb + 1)) :
    ∃ b0 b1 b2 b3 rest, b = b0 :: b1 :: b2 :: b3 :: rest ∧ rest.length = 4 * nb := by
  match b, h with
  | b0 :: b1 :: b2 :: b3 :: rest, h => exact ⟨b0, b1, b2, b3, rest, rfl, by simpa [Nat.mul_add] using h⟩

/-- Bytes read as whole words and written back are the same bytes (R53, R55). -/
theorem wordsToBytes_bytesToWords {nb : Nat} :
    ∀ {b : List Byte}, b.length = 4 * nb → wordsToBytes (bytesToWords b) = b := by
  induction nb with
  | zero =>
    intro b h
    obtain rfl : b = [] := List.eq_nil_of_length_eq_zero h
    rfl
  | succ nb ih =>
    intro b h
    obtain ⟨b0, b1, b2, b3, rest, rfl, hrest⟩ := exists_cons_word h
    simp [bytesToWords, ih hrest]

/-- Word `c` is made of the bytes `4c .. 4c+3` in order (R54, R180). -/
theorem bytesToWords_getD {nb : Nat} :
    ∀ {b : List Byte} {c : Nat}, b.length = 4 * nb → c < nb → (bytesToWords b).getD c Word.zero =
      ⟨b.getD (4 * c) 0, b.getD (1 + 4 * c) 0, b.getD (2 + 4 * c) 0, b.getD (3 + 4 * c) 0⟩ := by
  induction nb with
  | zero => exact fun _ hc => absurd hc (Nat.not_lt_zero _)
  | succ nb ih =>
    intro b c h hc
    obtain ⟨b0, b1, b2, b3, rest, rfl, hrest⟩ := exists_cons_word h
    cases c with
    | zero => rfl
    | succ c =>
      have hword := ih hrest (Nat.lt_of_succ_lt_succ hc)
      simpa [bytesToWords, Nat.mul_add, ← Nat.add_assoc] using hword

/-! ## Repeating a command -/

/-- Both answers are one response, after different earlier responses and in otherwise one state. -/
def State.SameAnswer (past past' : List Response) (t t' : State) : Prop :=
  ∃ r, t.responses = past ++ [r] ∧ t' = { t with responses := past' ++ [r] }

/-- No command reads the earlier responses. -/
theorem exec_setResponses_alike (s : State) (past : List Response) (i : Instr) :
    Alike (State.SameAnswer s.responses past) (exec i s) (exec i { s with responses := past }) := by
  apply exec_alike
  case hrespond => exact fun r => ⟨r, rfl, rfl⟩
  case h => exact ⟨rfl, rfl, rfl, rfl, rfl, rfl, rfl, rfl⟩
  case hchain => exact fun c r => ⟨r, rfl, rfl⟩
  case hestablish => exact fun kl bs key ci r => ⟨r, rfl, rfl⟩

/-- A command that does nothing but respond in `s` gives the same response again (R62). -/
theorem exec_respond_of_exec {i : Instr} {s : State} {r : Response} (h : exec i s = .next (s.respond r)) :
    exec i (s.respond r) = .next ((s.respond r).respond r) := by
  obtain ⟨t', hexec, r', hr, rfl⟩ := (exec_setResponses_alike s (s.responses ++ [r]) i).exists_next h
  obtain rfl : r = r' := by simpa using hr
  exact hexec

/-- `MAKEKEY` with supported sizes does not see the session it replaces (R160). -/
theorem execMakeKey_establish {kl bs : Nat} (hkl : SizeOk kl) (hbs : SizeOk bs) (z : Bool) (s : State)
    (key chainInit : List Byte) :
    execMakeKey z kl bs (s.establish kl bs key chainInit) = execMakeKey z kl bs s := by
  rw [execMakeKey_of_sizeOk hkl hbs, execMakeKey_of_sizeOk hkl hbs]
  rfl

/-- `RESETCHAIN` in a session does not see the chain it replaces (R228). -/
theorem execResetChain_setChain {s : State} (hk : s.keyInit = true) (c : List Byte) :
    execResetChain { s with chain := c } = execResetChain s := by
  rw [execResetChain, execResetChain, withKey_of_keyed hk, withKey_of_keyed (s := { s with chain := c }) hk]
  rfl

end Sys2Proof.Machine

namespace Sys2Proof.Proofs

open Sys2Proof.Machine

/-- Settles O15: an error is answered whatever `DIN` holds; without one, the length of `DIN` alone decides. -/
theorem onlyMalformedTransactionsAreRefused : Obligations.OnlyMalformedTransactionsAreRefused := by
  intro s i
  cases herror : s.errorOf i with
  | some e => exact ⟨fun h => (nomatch h.1), fun _ => ⟨_, exec_of_error herror⟩⟩
  | none =>
    obtain ⟨v, d, u, hexec⟩ := exec_of_noError herror
    rw [hexec]
    refine ⟨fun h => withDin_of_wrong_length h.2 _, fun h => ⟨_, withDin_of_length ?_ _⟩⟩
    by_contra hlen
    exact h ⟨rfl, hlen⟩

/-- Settles O29: loading and storing are the word layout of the key schedule, read in both directions. -/
theorem blockFillsTheStateByColumns : Obligations.BlockFillsTheStateByColumns := by
  intro block nb h
  have hlen : (loadState block).length = nb := by rw [loadState, bytesToWords_length]; omega
  exact ⟨hlen, wordsToBytes_bytesToWords h, fun c hc => bytesToWords_getD h hc⟩

/-- Settles O54: in every case the state answered is some `u` with the response added, where the command goes from
`u` as it goes from `s`; so it does nothing but respond in `u`, and can be repeated. -/
theorem unchainedCommandsRepeat : Obligations.UnchainedCommandsRepeat := by
  intro s t i h
  rcases exec_eq_next h with ⟨e, rfl⟩ | ⟨z, kl, bs, rfl, hkl, hbs, -, rfl⟩ | ⟨v, d, -, rfl⟩ |
    ⟨f, d, hchained, -, rfl⟩ | ⟨rfl, hk, rfl⟩
  · exact ⟨_, rfl, fun _ _ => rfl, fun _ => rfl, fun _ => exec_respond_of_exec h⟩
  · exact ⟨_, rfl, nofun, fun hr => absurd rfl hr, fun _ =>
      exec_respond_of_exec ((execMakeKey_establish hkl hbs z s _ _).trans h)⟩
  · exact ⟨_, rfl, fun _ _ => rfl, fun _ => rfl, fun _ => exec_respond_of_exec h⟩
  · refine ⟨_, rfl, fun _ hempty => ?_, fun hr => absurd rfl hr, fun hkeep => ?_⟩
    · rw [State.respond_chain, s.inputBlocks_of_empty hempty, chainLoop_nil]
    · have hchain : (chainLoop f s.inputBlocks s.chain).2 = s.chain := hkeep hchained
      rw [hchain] at h ⊢
      exact exec_respond_of_exec h
  · exact ⟨_, rfl, nofun, fun hr => absurd rfl hr, fun _ =>
      exec_respond_of_exec ((execResetChain_setChain hk s.chain0).trans h)⟩

end Sys2Proof.Proofs
end

section
/-!
PROOFS. The encoding family (spec 30_encoding.md), first part: the fields of a command word read off as numbers (R81),
and decode and encode as inverses of each other between the legal words and the well-formed commands.
-/

namespace Sys2Proof

/-! ## The fields of a word, as numbers (R81) -/

theorem opField_toNat (cmd : BitVec 32) : (opField cmd).toNat = cmd.toNat % 16 := by
  simp [opField, BitVec.extractLsb'_toNat]

theorem modeField_toNat (cmd : BitVec 32) : (modeField cmd).toNat = cmd.toNat / 16 % 4 := by
  simp [modeField, BitVec.extractLsb'_toNat, Nat.shiftRight_eq_div_pow]

theorem zField_toNat (cmd : BitVec 32) : (zField cmd).toNat = cmd.toNat / 64 % 2 := by
  simp [zField, BitVec.getLsbD, Nat.toNat_testBit]

theorem zField_iff (cmd : BitVec 32) : zField cmd = true ↔ cmd.toNat / 64 % 2 = 1 := by
  rw [← zField_toNat, Bool.toNat_eq_one]

theorem rsv7Field_iff (cmd : BitVec 32) : rsv7Field cmd = true ↔ cmd.toNat / 128 % 2 = 1 := by
  simp [rsv7Field, BitVec.getLsbD, Nat.testBit_eq_decide_div_mod_eq]

theorem keylenField_toNat (cmd : BitVec 32) : (keylenField cmd).toNat = cmd.toNat / 256 % 256 := by
  simp [keylenField, BitVec.extractLsb'_toNat, Nat.shiftRight_eq_div_pow]

theorem blksizeField_toNat (cmd : BitVec 32) : (blksizeField cmd).toNat = cmd.toNat / 65536 % 256 := by
  simp [blksizeField, BitVec.extractLsb'_toNat, Nat.shiftRight_eq_div_pow]

theorem rsv31Field_toNat (cmd : BitVec 32) : (rsv31Field cmd).toNat = cmd.toNat / 16777216 := by
  have hlt : cmd.toNat / 2 ^ 24 < 2 ^ 8 := by have := cmd.isLt; omega
  rw [rsv31Field, BitVec.extractLsb'_toNat, Nat.shiftRight_eq_div_pow]
  exact Nat.mod_eq_of_lt hlt

section CommandWord

variable (op : BitVec 4) (mode : BitVec 2) (z : Bool) (kl bs : BitVec 8)

@[simp] theorem opField_commandWord : opField (commandWord op mode z kl bs) = op := by
  apply BitVec.eq_of_toNat_eq
  rw [opField_toNat, commandWord_toNat]
  omega

@[simp] theorem modeField_commandWord : modeField (commandWord op mode z kl bs) = mode := by
  apply BitVec.eq_of_toNat_eq
  rw [modeField_toNat, commandWord_toNat]
  omega

@[simp] theorem zField_commandWord : zField (commandWord op mode z kl bs) = z := by
  rw [zField, commandWord_getLsbD]
  rfl

@[simp] theorem keylenField_commandWord : keylenField (commandWord op mode z kl bs) = kl := by
  apply BitVec.eq_of_toNat_eq
  rw [keylenField_toNat, commandWord_toNat]
  have := z.toNat_lt
  omega

@[simp] theorem blksizeField_commandWord : blksizeField (commandWord op mode z kl bs) = bs := by
  apply BitVec.eq_of_toNat_eq
  rw [blksizeField_toNat, commandWord_toNat]
  have := z.toNat_lt
  omega

@[simp] theorem rsv7Field_commandWord : rsv7Field (commandWord op mode z kl bs) = false := by
  rw [rsv7Field, commandWord_getLsbD]
  rfl

@[simp] theorem rsv31Field_commandWord : rsv31Field (commandWord op mode z kl bs) = 0 := by
  apply BitVec.eq_of_toNat_eq
  rw [rsv31Field_toNat, commandWord_toNat]
  have := z.toNat_lt
  exact Nat.div_eq_of_lt (by omega)

end CommandWord

/-- A word without a reserved bit is the word of its fields: R81 leaves no other bit. -/
theorem commandWord_fields {cmd : BitVec 32} (h31 : rsv31Field cmd = 0) (h7 : rsv7Field cmd = false) :
    commandWord (opField cmd) (modeField cmd) (zField cmd) (keylenField cmd) (blksizeField cmd) = cmd := by
  have e31 : cmd.toNat / 16777216 = 0 := by rw [← rsv31Field_toNat, h31]; rfl
  have e7 : cmd.toNat / 128 % 2 ≠ 1 := by simp [← rsv7Field_iff, h7]
  apply BitVec.eq_of_toNat_eq
  rw [commandWord_toNat, opField_toNat, modeField_toNat, zField_toNat, keylenField_toNat, blksizeField_toNat]
  omega

/-! ## Decoding (R90) -/

/-- The command is well-formed, and its word has these `OP` and `MODE` and zero in every other field (R87). -/
def Instr.HasPlainWord (i : Instr) (op : BitVec 4) (mode : BitVec 2) : Prop :=
  i.wf = true ∧ encode i = commandWord op mode false 0 0

theorem decodeEncrypt_eq_legal {mode : BitVec 2} {i : Instr} (h : decodeEncrypt mode = .legal i) :
    i.HasPlainWord 4 mode := by
  unfold decodeEncrypt at h
  split_ifs at h with h0 h1 h2 <;> cases h
  · exact ⟨rfl, h0 ▸ rfl⟩
  · exact ⟨rfl, h1 ▸ rfl⟩
  · exact ⟨rfl, h2 ▸ rfl⟩

theorem decodeDecrypt_eq_legal {mode : BitVec 2} {i : Instr} (h : decodeDecrypt mode = .legal i) :
    i.HasPlainWord 5 mode := by
  unfold decodeDecrypt at h
  split_ifs at h with h0 h1 h2 <;> cases h
  · exact ⟨rfl, h0 ▸ rfl⟩
  · exact ⟨rfl, h1 ▸ rfl⟩
  · exact ⟨rfl, h2 ▸ rfl⟩

theorem decodePlainOp_eq_legal {op : BitVec 4} {i : Instr} (h : decodePlainOp op = .legal i) :
    i.HasPlainWord op 0 := by
  unfold decodePlainOp at h
  split_ifs at h with h2 h3 h6 h7 h8 h9 <;> cases h
  · exact ⟨rfl, h2 ▸ rfl⟩
  · exact ⟨rfl, h3 ▸ rfl⟩
  · exact ⟨rfl, h6 ▸ rfl⟩
  · exact ⟨rfl, h7 ▸ rfl⟩
  · exact ⟨rfl, h8 ▸ rfl⟩
  · exact ⟨rfl, h9 ▸ rfl⟩

/-- Everything a legal word can be: no reserved bit, and either a `MAKEKEY` that carries its operands, or a command
that uses `OP` and `MODE` alone, with zero in the fields of the operands. -/
theorem decode_eq_legal {cmd : BitVec 32} {i : Instr} (h : decode cmd = .legal i) :
    rsv31Field cmd = 0 ∧ rsv7Field cmd = false ∧
    ((opField cmd = 1 ∧ modeField cmd = 0 ∧
        i = .makeKey (zField cmd) (keylenField cmd).toNat (blksizeField cmd).toNat) ∨
      (zField cmd = false ∧ keylenField cmd = 0 ∧ blksizeField cmd = 0 ∧
        i.HasPlainWord (opField cmd) (modeField cmd))) := by
  unfold decode at h
  split_ifs at h with hrsv hop1 hmode hoperands hop4 hop5 hmode
  all_goals
    obtain ⟨h31, h7⟩ : rsv31Field cmd = 0 ∧ rsv7Field cmd = false := by simpa using hrsv
    refine ⟨h31, h7, ?_⟩
  · cases h
    exact .inl ⟨hop1, not_not.1 hmode, rfl⟩
  all_goals
    obtain ⟨hz, hkl, hbs⟩ : zField cmd = false ∧ keylenField cmd = 0 ∧ blksizeField cmd = 0 := by simpa using hoperands
    refine .inr ⟨hz, hkl, hbs, ?_⟩
  · rw [hop4]
    exact decodeEncrypt_eq_legal h
  · rw [hop5]
    exact decodeDecrypt_eq_legal h
  · rw [not_not.1 hmode]
    exact decodePlainOp_eq_legal h

/-- A well-formed command comes back from its word. -/
theorem decode_encode {i : Instr} (h : i.wf = true) : decode (encode i) = .legal i := by
  cases i with
  | makeKey z kl bs =>
    obtain ⟨hkl, hbs⟩ : kl < 256 ∧ bs < 256 := by simpa [Instr.wf] using h
    simp [decode, encode, Nat.mod_eq_of_lt, hkl, hbs]
  | _ => rfl

/-- The operands of a legal word come from its fields, so they fit them (R85). -/
theorem wf_of_decode {cmd : BitVec 32} {i : Instr} (h : decode cmd = .legal i) : i.wf = true := by
  obtain ⟨-, -, ⟨-, -, rfl⟩ | ⟨-, -, -, hwf, -⟩⟩ := decode_eq_legal h
  · simpa [Instr.wf] using ⟨(keylenField cmd).isLt, (blksizeField cmd).isLt⟩
  · exact hwf

/-- A legal word is the word of its command: its bits are those of its fields. -/
theorem encode_of_decode {cmd : BitVec 32} {i : Instr} (h : decode cmd = .legal i) : encode i = cmd := by
  obtain ⟨h31, h7, hfields⟩ := decode_eq_legal h
  rcases hfields with ⟨hop, hmode, rfl⟩ | ⟨hz, hkl, hbs, -, hword⟩
  · calc encode (.makeKey (zField cmd) (keylenField cmd).toNat (blksizeField cmd).toNat)
      _ = commandWord (opField cmd) (modeField cmd) (zField cmd) (keylenField cmd) (blksizeField cmd) := by
        simp [encode, hop, hmode]
      _ = cmd := commandWord_fields h31 h7
  · calc encode i
      _ = commandWord (opField cmd) (modeField cmd) (zField cmd) (keylenField cmd) (blksizeField cmd) := by
        rw [hword, hz, hkl, hbs]
      _ = cmd := commandWord_fields h31 h7

/-! ## Illegal words (R88) -/

/-- The alternative of R88 that `why` names, read off `CMD` as a number. -/
def IllegalCommand.Applies (why : IllegalCommand) (c : Nat) : Prop :=
  match why with
  | .reservedBit => c / 128 % 2 = 1 ∨ c / 16777216 ≠ 0
  | .unusedOperand => c % 16 ≠ 1 ∧ (c / 64 % 2 = 1 ∨ c / 256 % 256 ≠ 0 ∨ c / 65536 % 256 ≠ 0)
  | .unusedMode => ¬ (c % 16 = 4 ∨ c % 16 = 5) ∧ c / 16 % 4 ≠ 0
  | .reservedMode => (c % 16 = 4 ∨ c % 16 = 5) ∧ c / 16 % 4 = 3
  | .reservedOp => c % 16 = 0 ∨ 10 ≤ c % 16

theorem decodeEncrypt_eq_illegal {mode : BitVec 2} {why} (h : decodeEncrypt mode = .illegal why) :
    why = .reservedMode ∧ mode = 3 := by
  unfold decodeEncrypt at h
  split_ifs at h with h0 h1 h2
  cases h
  exact ⟨rfl, by bv_omega⟩

theorem decodeDecrypt_eq_illegal {mode : BitVec 2} {why} (h : decodeDecrypt mode = .illegal why) :
    why = .reservedMode ∧ mode = 3 := by
  unfold decodeDecrypt at h
  split_ifs at h with h0 h1 h2
  cases h
  exact ⟨rfl, by bv_omega⟩

theorem decodePlainOp_eq_illegal {op : BitVec 4} {why} (h : decodePlainOp op = .illegal why) :
    why = .reservedOp ∧ (op = 0 ∨ op = 1 ∨ op = 4 ∨ op = 5 ∨ 10 ≤ op) := by
  unfold decodePlainOp at h
  split_ifs at h with h2 h3 h6 h7 h8 h9
  cases h
  exact ⟨rfl, by bv_omega⟩

/-- A word is illegal by the alternative of R88 that decoding names. -/
theorem applies_of_decode_illegal {cmd : BitVec 32} {why} (h : decode cmd = .illegal why) :
    why.Applies cmd.toNat := by
  have eop := opField_toNat cmd
  have emode := modeField_toNat cmd
  unfold decode at h
  split_ifs at h with hrsv hop1 hmode hoperands hop4 hop5 hmode
  · cases h
    rw [IllegalCommand.Applies, ← rsv7Field_iff, ← rsv31Field_toNat]
    exact hrsv.symm.imp_right fun h31 => by bv_omega
  · cases h
    exact ⟨by bv_omega, by bv_omega⟩
  · cases h
    rw [IllegalCommand.Applies, ← zField_iff, ← keylenField_toNat, ← blksizeField_toNat]
    exact ⟨by bv_omega, hoperands.imp_right fun hsize => by bv_omega⟩
  · obtain ⟨rfl, hmode⟩ := decodeEncrypt_eq_illegal h
    exact ⟨by bv_omega, by bv_omega⟩
  · obtain ⟨rfl, hmode⟩ := decodeDecrypt_eq_illegal h
    exact ⟨by bv_omega, by bv_omega⟩
  · cases h
    exact ⟨by bv_omega, by bv_omega⟩
  · obtain ⟨rfl, hop⟩ := decodePlainOp_eq_illegal h
    rw [IllegalCommand.Applies]
    bv_omega

/-- The word of `MAKEKEY` as a number: `OP = 1`, `Z` at bit 6, the sizes unscaled at bits 8 and 16 (R81, R84). -/
theorem encode_makeKey_toNat {kl bs : Nat} (hkl : kl < 256) (hbs : bs < 256) (z : Bool) :
    (encode (.makeKey z kl bs)).toNat = 0x00000001 + z.toNat * 64 + kl * 256 + bs * 65536 := by
  rw [encode, commandWord_toNat, BitVec.toNat_ofNat, BitVec.toNat_ofNat, Nat.mod_eq_of_lt hkl, Nat.mod_eq_of_lt hbs]
  simp only [BitVec.toNat_ofNat, BitVec.ofNat_eq_ofNat]
  omega

/-- No alternative of R88 applies to the word of a well-formed command. -/
theorem not_applies_encode {i : Instr} (h : i.wf = true) (why : IllegalCommand) : ¬ why.Applies (encode i).toNat := by
  cases i with
  | makeKey z kl bs =>
    obtain ⟨hkl, hbs⟩ : kl < 256 ∧ bs < 256 := by simpa [Instr.wf] using h
    have := z.toNat_lt
    rw [encode_makeKey_toNat hkl hbs]
    cases why <;> simp only [IllegalCommand.Applies] <;> omega
  | _ => cases why <;> simp [IllegalCommand.Applies, encode, commandWord]

/-- The alternatives of R88 in its own order. -/
theorem exists_applies_iff {c : Nat} :
    (∃ why : IllegalCommand, why.Applies c) ↔
      (c % 16 = 0 ∨ 10 ≤ c % 16) ∨ ((c % 16 = 4 ∨ c % 16 = 5) ∧ c / 16 % 4 = 3) ∨
      (¬ (c % 16 = 4 ∨ c % 16 = 5) ∧ c / 16 % 4 ≠ 0) ∨ (c % 16 ≠ 1 ∧ c / 64 % 2 = 1) ∨
      (c % 16 ≠ 1 ∧ (c / 256 % 256 ≠ 0 ∨ c / 65536 % 256 ≠ 0)) ∨ c / 128 % 2 = 1 ∨ c / 16777216 ≠ 0 := by
  constructor
  · rintro ⟨why, h⟩
    cases why <;> simp only [IllegalCommand.Applies] at h <;> tauto
  · rintro (h | h | h | h | h | h | h)
    · exact ⟨.reservedOp, h⟩
    · exact ⟨.reservedMode, h⟩
    · exact ⟨.unusedMode, h⟩
    · exact ⟨.unusedOperand, h.1, .inl h.2⟩
    · exact ⟨.unusedOperand, h.1, .inr h.2⟩
    · exact ⟨.reservedBit, .inl h⟩
    · exact ⟨.reservedBit, .inr h⟩

/-! ## The opcode map (R94) -/

/-- The word of a well-formed command is selected by the row with its mnemonic. -/
theorem encode_selected (i : Instr) : Laws.EncodingRow.Statement i := by
  cases i with
  | makeKey z kl bs => exact Laws.EncodingRow.makeKey z kl bs
  | encryptBlock => exact Laws.EncodingRow.encryptBlock
  | decryptBlock => exact Laws.EncodingRow.decryptBlock
  | encryptEcb => exact Laws.EncodingRow.encryptEcb
  | encryptCbc => exact Laws.EncodingRow.encryptCbc
  | encryptCfb => exact Laws.EncodingRow.encryptCfb
  | decryptEcb => exact Laws.EncodingRow.decryptEcb
  | decryptCbc => exact Laws.EncodingRow.decryptCbc
  | decryptCfb => exact Laws.EncodingRow.decryptCfb
  | getKeyLength => exact Laws.EncodingRow.getKeyLength
  | getBlockSize => exact Laws.EncodingRow.getBlockSize
  | getRounds => exact Laws.EncodingRow.getRounds
  | resetChain => exact Laws.EncodingRow.resetChain

/-- No two rows have one mnemonic. -/
theorem row_eq_of_mnemonic {row row' : OpcodeRow} (h : row ∈ opcodeRows) (h' : row' ∈ opcodeRows)
    (heq : row.mnemonic = row'.mnemonic) : row = row' :=
  List.inj_on_of_nodup_map (f := OpcodeRow.mnemonic) (by decide) h h' heq

/-- What `(CMD and mask) == match` says of the bits that the mask covers. -/
theorem extractLsb'_of_masked {cmd mask pattern : BitVec 32} (h : cmd &&& mask = pattern) {lo n : Nat}
    (hcovered : mask.extractLsb' lo n = BitVec.allOnes n) : cmd.extractLsb' lo n = pattern.extractLsb' lo n := by
  rw [← h, BitVec.extractLsb'_and, hcovered, BitVec.and_allOnes]

/-- The mask of `MAKEKEY` covers `OP`, `MODE` and the reserved bits, and leaves the operands free. -/
theorem decode_of_makeKey_mask {cmd : BitVec 32} (h : cmd &&& 0xFF0000BF = 0x00000001) :
    decode cmd = .legal (.makeKey (zField cmd) (keylenField cmd).toNat (blksizeField cmd).toNat) := by
  have h31 : rsv31Field cmd = 0 := extractLsb'_of_masked h (by decide)
  have h7 : rsv7Field cmd = false := by simpa [rsv7Field] using congrArg rsv7Field h
  have hmode : modeField cmd = 0 := extractLsb'_of_masked h (by decide)
  have hop : opField cmd = 1 := extractLsb'_of_masked h (by decide)
  simp [decode, h31, h7, hmode, hop]

/-- A word that a row of full mask selects is its pattern. -/
theorem eq_pattern_of_selects {row : OpcodeRow} {cmd : BitVec 32} (hmask : row.mask = BitVec.allOnes 32)
    (h : row.selects cmd = true) : cmd = row.pattern := by
  simpa only [OpcodeRow.selects, hmask, BitVec.and_allOnes, beq_iff_eq] using h

/-- Every row but the first has the full mask, and its pattern decodes to the command with its mnemonic. -/
theorem plain_rows : ∀ row ∈ opcodeRows.tail, row.mask = BitVec.allOnes 32 ∧
    ((decode row.pattern).instr?.map Instr.mnemonic) = some row.mnemonic := by
  decide

theorem Decoded.instr?_eq_some {d : Decoded} {i : Instr} : d.instr? = some i ↔ d = .legal i := by
  cases d <;> simp [Decoded.instr?]

/-- A row selects a word exactly when the word is legal and its command has the row's mnemonic. -/
theorem selects_iff {row : OpcodeRow} (hrow : row ∈ opcodeRows) (cmd : BitVec 32) :
    row.selects cmd = true ↔ ∃ i, decode cmd = .legal i ∧ i.mnemonic = row.mnemonic := by
  constructor
  · intro h
    rcases List.mem_cons.1 hrow with rfl | hplain
    · exact ⟨_, decode_of_makeKey_mask (by simpa [OpcodeRow.selects] using h), rfl⟩
    · obtain ⟨hmask, hname⟩ := plain_rows row hplain
      obtain rfl := eq_pattern_of_selects hmask h
      simpa [Decoded.instr?_eq_some] using hname
  · rintro ⟨i, hi, hname⟩
    obtain ⟨row', hrow', hname', hselects⟩ := encode_selected i (wf_of_decode hi)
    obtain rfl := row_eq_of_mnemonic hrow' hrow (hname'.trans hname)
    rwa [encode_of_decode hi] at hselects

/-- Each command has one row. -/
theorem rows_of_mnemonic (i : Instr) :
    (opcodeRows.filter fun row => i.mnemonic == row.mnemonic).map OpcodeRow.mnemonic = [i.mnemonic] := by
  cases i <;> rfl

end Sys2Proof

namespace Sys2Proof.Proofs

open Sys2Proof.Machine

/-- Settles O2: no field of the word loses a bit of a well-formed command. -/
theorem decodeOfEncodeIsTheCommand : Obligations.DecodeOfEncodeIsTheCommand :=
  fun _ => decode_encode

/-- Settles O3: a legal word has its bits in the fields that its command writes, and zero in the others. -/
theorem encodeOfDecodeIsTheWord : Obligations.EncodeOfDecodeIsTheWord :=
  fun _ _ h => ⟨wf_of_decode h, encode_of_decode h⟩

/-- Settles O4: the rows that select a word are those with the mnemonic of its command, and mnemonics are distinct. -/
theorem opcodeRowsSelectExactlyTheLegalWords : Obligations.OpcodeRowsSelectExactlyTheLegalWords := by
  intro cmd
  refine ⟨fun i hi => ?_, fun why hwhy => ?_⟩
  · have hsame : ∀ row ∈ opcodeRows, row.selects cmd = (i.mnemonic == row.mnemonic) := by
      intro row hrow
      rw [Bool.eq_iff_iff, selects_iff hrow, beq_iff_eq]
      simp [hi]
    rw [List.filter_congr hsame]
    exact rows_of_mnemonic i
  · rw [List.filter_eq_nil_iff]
    intro row hrow
    rw [selects_iff hrow]
    rintro ⟨i, hi, -⟩
    cases hwhy.symm.trans hi

/-- Settles O5: the number is that of the encoded `MAKEKEY`, which comes back from its word. -/
theorem makeKeyWordCarriesUnscaledSizes : Obligations.MakeKeyWordCarriesUnscaledSizes := by
  intro z kl bs hkl hbs
  rw [← encode_makeKey_toNat hkl hbs, BitVec.ofNat_toNat, BitVec.setWidth_eq]
  exact decode_encode (by simp [Instr.wf, hkl, hbs])

/-- Settles O10: a word is illegal exactly when an alternative of R88 applies to its number, and `InvalidCommand` is
raised before any other check. -/
theorem illegalWordsRaiseInvalidCommand : Obligations.IllegalWordsRaiseInvalidCommand := by
  rintro s tr rest _ _ _ _ _ _ hin rfl rfl rfl rfl rfl rfl
  rw [← exists_applies_iff]
  cases hd : decode tr.cmd with
  | legal i =>
    have hword : encode i = tr.cmd := encode_of_decode hd
    exact ⟨fun ⟨why, hwhy⟩ => absurd (hword ▸ hwhy) (not_applies_encode (wf_of_decode hd) why), fun _ => ⟨i, rfl⟩⟩
  | illegal why =>
    have hraise : step s = raise .invalidCommand (s.accept tr rest) := by
      rw [step_of_command hin, perform_of_illegal (by rwa [State.accept_cur])]
    exact ⟨fun _ => hraise, fun hnone => absurd ⟨why, applies_of_decode_illegal hd⟩ hnone⟩

end Sys2Proof.Proofs
end

section
/-!
PROOFS. The encoding family (spec 30_encoding.md), second part: the responses (R80, R91, R92), the call forms (R93) and
the null chain of `MAKEKEY` (R84).
-/

namespace Sys2Proof.Machine

/-! ## Responses -/

theorem Status.code_toNat_le (e : Status) : e.code.toNat ≤ 5 := by
  cases e <;> decide

/-- A command leaves the host's actions and appends one response, with a known status (R80, R92). -/
theorem exec_response {i : Instr} {s t : State} (h : exec i s = .next t) :
    t.inputs = s.inputs ∧ ∃ r, t.responses = s.responses ++ [r] ∧ r.status.toNat ≤ 5 := by
  rcases exec_eq_next h with ⟨e, rfl⟩ | ⟨z, kl, bs, -, -, -, -, rfl⟩ | ⟨v, d, -, rfl⟩ | ⟨f, d, -, -, rfl⟩ | ⟨-, -, rfl⟩
  · exact ⟨rfl, _, rfl, e.code_toNat_le⟩
  all_goals exact ⟨rfl, _, rfl, Status.ok.code_toNat_le⟩

/-- `t` has one response more than `s`, with `RVAL = 0`. -/
def State.AnswersZero (s t : State) : Prop := ∃ r, t.responses = s.responses ++ [r] ∧ r.rval = 0

/-- `RVAL` is 0 but for the three accessors (R91). -/
theorem exec_rval {i : Instr} {s t : State} (h : exec i s = .next t) :
    s.AnswersZero t ∨ i = .getKeyLength ∨ i = .getBlockSize ∨ i = .getRounds := by
  cases i with
  | getKeyLength => exact .inr (.inl rfl)
  | getBlockSize => exact .inr (.inr (.inl rfl))
  | getRounds => exact .inr (.inr (.inr rfl))
  | makeKey z kl bs =>
    rcases execMakeKey_eq_next h with ⟨-, rfl⟩ | ⟨-, -, rfl⟩ | ⟨-, -, -, rfl⟩
    all_goals exact .inl ⟨_, rfl, rfl⟩
  | encryptEcb | decryptEcb =>
    rcases runEcb_eq_next h with ⟨e, rfl⟩ | rfl
    all_goals exact .inl ⟨_, rfl, rfl⟩
  | encryptCbc | encryptCfb | decryptCbc | decryptCfb =>
    rcases runChained_eq_next h with ⟨e, rfl⟩ | ⟨-, rfl⟩
    all_goals exact .inl ⟨_, rfl, rfl⟩
  | encryptBlock | decryptBlock | resetChain =>
    rcases withKey_eq_next h with ⟨-, h⟩ | ⟨-, rfl⟩
    · obtain rfl := succeed_eq_next_iff.1 (withDin_eq_next h).2
      exact .inl ⟨_, rfl, rfl⟩
    · exact .inl ⟨_, rfl, rfl⟩

/-! ## The null chain -/

/-- The key is the first operand in `DIN` (R51). -/
theorem keyOperand_append (key tail : List Byte) : keyOperand (key ++ tail) key.length = key := by
  simp [keyOperand, memRead]

/-- The chain-init is the rest of `DIN` (R51). -/
theorem chainInitOperand_append (key chainInit : List Byte) :
    chainInitOperand false (key ++ chainInit) key.length chainInit.length = chainInit := by
  simp [chainInitOperand, memRead]

/-- `sm_chain0` gives any supported block size its zero bytes (R33). -/
theorem chainInitOperand_null {bs : Nat} (hbs : SizeOk bs) (din : List Byte) (kl : Nat) :
    chainInitOperand true din kl bs = zeros bs := by
  have hle : bs ≤ Config.maxBlockSize := by simp only [Config.maxBlockSize]; omega
  simp [chainInitOperand, Config.smChain0, zeros, hle]

/-- `MAKEKEY` with `Z = 1` and the key alone establishes the session of a zero chain-init (R84). -/
theorem execMakeKey_null {s : State} {key : List Byte} {bs : Nat} (hkl : SizeOk key.length) (hbs : SizeOk bs)
    (hdin : s.cur.din = key) : execMakeKey true key.length bs s =
      .next ((s.establish key.length bs key (zeros bs)).respond (okResponse 0 [])) := by
  have hkey : keyOperand key key.length = key := by simpa using keyOperand_append key []
  rw [execMakeKey_of_sizeOk hkl hbs, withDin_of_length (by simp [hdin, makeKeyDinLength]), hdin, hkey,
    chainInitOperand_null hbs]
  rfl

/-- `MAKEKEY` with `Z = 0` establishes the session of the key and the chain-init in `DIN` (R158). -/
theorem execMakeKey_append {s : State} {key chainInit : List Byte} (hkl : SizeOk key.length)
    (hbs : SizeOk chainInit.length) (hdin : s.cur.din = key ++ chainInit) :
    execMakeKey false key.length chainInit.length s =
      .next ((s.establish key.length chainInit.length key chainInit).respond (okResponse 0 [])) := by
  rw [execMakeKey_of_sizeOk hkl hbs, withDin_of_length (by simp [hdin, makeKeyDinLength]), hdin, keyOperand_append,
    chainInitOperand_append]
  rfl

end Sys2Proof.Machine

namespace Sys2Proof.Proofs

open Sys2Proof.Machine

/-- Settles O14: an illegal word is answered with an error, a legal one with its command's one response. -/
theorem everyCommandGetsOneResponse : Obligations.EveryCommandGetsOneResponse := by
  intro s t tr rest hin h
  rw [step_of_command hin] at h
  rcases perform_eq_next h with ⟨i, hi, h⟩ | ⟨why, -, rfl⟩
  · obtain ⟨hinputs, r, hresp, hstatus⟩ := exec_response h
    refine ⟨hinputs, r, hresp, hstatus, fun hrval => ?_⟩
    rcases exec_rval h with ⟨r', hresp', hzero⟩ | rfl | rfl | rfl
    · obtain rfl : r = r' := by simpa using hresp.symm.trans hresp'
      exact absurd hzero hrval
    · exact .inl hi
    · exact .inr (.inl hi)
    · exact .inr (.inr hi)
  · exact ⟨rfl, _, rfl, Status.invalidCommand.code_toNat_le, fun hrval => absurd rfl hrval⟩

/-- Settles O1: the fourteen words are evaluated. -/
theorem decodeReadsTheThirteenWords : Obligations.DecodeReadsTheThirteenWords := by
  unfold Obligations.DecodeReadsTheThirteenWords
  decide

/-- Settles O6: the word of `MAKEKEY` is computed field by field, the others have no operand. -/
theorem callFormsHaveTheirCommandWords : Obligations.CallFormsHaveTheirCommandWords := by
  refine ⟨fun key chainInit kl bs hkl hbs => ?_, fun key chainInit kl => ⟨rfl, rfl, rfl⟩, fun block => ⟨rfl, rfl⟩,
    fun buffer m encryptWord decryptWord hlen hecb hcbc hcfb => ?_, rfl, rfl, rfl, rfl⟩
  · exact ⟨encode_makeKey_toNat hkl hbs false, rfl, rfl, encode_makeKey_toNat hkl hbs true, rfl, rfl⟩
  · have hword : (BitVec.ofNat 32 buffer.length).toNat = buffer.length := by
      rw [BitVec.toNat_ofNat, Nat.mod_eq_of_lt hlen]
    cases m with
    | ecb =>
      obtain ⟨rfl, rfl⟩ := hecb rfl
      exact ⟨rfl, hword, rfl, rfl, hword, rfl⟩
    | cbc =>
      obtain ⟨rfl, rfl⟩ := hcbc rfl
      exact ⟨rfl, hword, rfl, rfl, hword, rfl⟩
    | cfb =>
      obtain ⟨rfl, rfl⟩ := hcfb rfl
      exact ⟨rfl, hword, rfl, rfl, hword, rfl⟩

/-- Settles O17: an unsupported size is the same error in both forms, and with supported sizes both establish the
session of the key and a zero chain-init. -/
theorem nullChainEqualsZeroChainInit : Obligations.NullChainEqualsZeroChainInit := by
  rintro s key _ bs cmd len rfl
  by_cases hkl : SizeOk key.length
  · by_cases hbs : SizeOk bs
    · have hzeros : (zeros bs).length = bs := List.length_replicate
      have hfull := execMakeKey_append (s := { s with cur := ⟨cmd, len, key ++ zeros bs⟩ }) (chainInit := zeros bs) hkl
        (by rwa [hzeros]) rfl
      rw [hzeros] at hfull
      exact ⟨_, _, execMakeKey_null hkl hbs rfl, hfull, rfl⟩
    · exact ⟨_, _, execMakeKey_of_badBlockSize hkl hbs _ _, execMakeKey_of_badBlockSize hkl hbs _ _, rfl⟩
  · exact ⟨_, _, execMakeKey_of_badKeyLength hkl _ _ _, execMakeKey_of_badKeyLength hkl _ _ _, rfl⟩

end Sys2Proof.Proofs
end

section
/-!
PROOFS. The field arithmetic family (spec 40_gf_arithmetic.md). Every operation here is additive in each operand, so
an equation between two of them is checked on the powers of `x` alone; there the product is repeated doubling.
-/

namespace Sys2Proof.Machine

/-! ## Functions that distribute over exclusive-or -/

/-- `f` is additive for `gf_add` (R111), at any two widths. -/
def XorAdditive {m n : Nat} (f : BitVec m → BitVec n) : Prop := ∀ a b, f (a ^^^ b) = f a ^^^ f b

/-- Adding `v` at a set bit, which every loop below does, is additive: where both bits are set, `v` is added twice. -/
theorem ite_xor_bits {n : Nat} (x y : Bool) (p q v : BitVec n) :
    (if (x ^^ y) = true then p ^^^ q ^^^ v else p ^^^ q) =
      (if x = true then p ^^^ v else p) ^^^ (if y = true then q ^^^ v else q) := by
  have htwice : p ^^^ q = p ^^^ v ^^^ (q ^^^ v) := by
    calc p ^^^ q = p ^^^ q ^^^ (v ^^^ v) := by simp
      _ = p ^^^ v ^^^ (q ^^^ v) := by ac_rfl
  cases x <;> cases y
  · rfl
  · exact BitVec.xor_assoc p q v
  · exact (by ac_rfl : p ^^^ q ^^^ v = p ^^^ v ^^^ q)
  · exact htwice

namespace XorAdditive

theorem map_zero {m n : Nat} {f : BitVec m → BitVec n} (hf : XorAdditive f) : f 0#m = 0#n := by
  simpa using hf 0#m 0#m

theorem comp {k m n : Nat} {g : BitVec m → BitVec n} {f : BitVec k → BitVec m} (hg : XorAdditive g)
    (hf : XorAdditive f) : XorAdditive (fun a => g (f a)) := fun a b => by
  simp only [hf a b, hg (f a)]

theorem xor {m n : Nat} {f g : BitVec m → BitVec n} (hf : XorAdditive f) (hg : XorAdditive g) :
    XorAdditive (fun a => f a ^^^ g a) := fun a b => by
  simp only [hf a b, hg a b]
  ac_rfl

theorem iterate {n : Nat} {f : BitVec n → BitVec n} (hf : XorAdditive f) : ∀ k : Nat, XorAdditive f^[k]
  | 0 => fun _ _ => rfl
  | k + 1 => (iterate hf k).comp hf

theorem foldl {n : Nat} {f : BitVec n → Nat → BitVec n} (hf : ∀ d, XorAdditive (f · d)) :
    ∀ l : List Nat, XorAdditive (l.foldl f)
  | [] => fun _ _ => rfl
  | d :: l => (foldl hf l).comp (hf d)

/-- An additive function is fixed by its values at the powers of `x`: take the highest set bit off until none is
left. -/
theorem ext {m n : Nat} {f g : BitVec m → BitVec n} (hf : XorAdditive f) (hg : XorAdditive g)
    (h : ∀ k < m, f (BitVec.twoPow m k) = g (BitVec.twoPow m k)) (a : BitVec m) : f a = g a := by
  suffices below : ∀ k ≤ m, ∀ a : BitVec m, (∀ i, k ≤ i → a.getLsbD i = false) → f a = g a from
    below m le_rfl a fun i hi => a.getLsbD_of_ge i hi
  intro k
  induction k with
  | zero =>
    intro _ a ha
    obtain rfl : a = 0#m := BitVec.eq_of_getLsbD_eq fun i _ => by simp [ha i]
    rw [hf.map_zero, hg.map_zero]
  | succ k ih =>
    intro hk a ha
    have lower : ∀ a : BitVec m, (∀ i, k + 1 ≤ i → a.getLsbD i = false) → a.getLsbD k = false → f a = g a :=
      fun a ha hbit => ih (by omega) a fun i hi => (Nat.eq_or_lt_of_le hi).elim (· ▸ hbit) (ha i)
    by_cases hbit : a.getLsbD k
    · have hrest : f (a ^^^ BitVec.twoPow m k) = g (a ^^^ BitVec.twoPow m k) := by
        refine lower _ (fun i hi => ?_) ?_
        · simp [ha i hi, BitVec.getLsbD_twoPow]
          omega
        · simp [hbit, BitVec.getLsbD_twoPow]
          omega
      rw [hf, hg, h k hk] at hrest
      exact (BitVec.xor_left_inj _).mp hrest
    · exact lower a ha (by simpa using hbit)

end XorAdditive

/-! ## Doubling (R112) -/

/-- `xtime` on bytes alone: the low byte of `POLY` cancels the bit that left. -/
theorem xtime_eq (a : Byte) : xtime a = if a.getLsbD 7 then a <<< 1 ^^^ 0x1B else a <<< 1 := by
  have hshift : ((a.setWidth 9) <<< 1).setWidth 8 = a <<< 1 :=
    BitVec.eq_of_getLsbD_eq fun i hi => by simp [hi]
  unfold xtime
  split
  · rw [BitVec.setWidth_xor, hshift]
    rfl
  · exact hshift

theorem xtime_xorAdditive : XorAdditive xtime := fun a b => by
  simp only [xtime_eq, BitVec.getLsbD_xor, BitVec.shiftLeft_xor_distrib, ite_xor_bits]

/-- Without bit 7 the shift loses nothing; with it `POLY` cancels bit 8, so that the number fits a byte. -/
theorem xtime_toNat (a : Byte) :
    (xtime a).toNat = if a.toNat < 128 then 2 * a.toNat else (2 * a.toNat) ^^^ 0x11B := by
  have hbit : a.getLsbD 7 = decide (128 ≤ a.toNat) := BitVec.msb_eq_decide a
  have ha : a.toNat < 256 := a.isLt
  have hshift : (a.setWidth 9 <<< 1).toNat = 2 * a.toNat := by
    rw [BitVec.toNat_shiftLeft, BitVec.toNat_setWidth, Nat.shiftLeft_eq]
    omega
  unfold xtime
  split
  case isTrue h7 =>
    have hge : 128 ≤ a.toNat := of_decide_eq_true (hbit.symm.trans h7)
    have hcancel : (2 * a.toNat ^^^ 0x11B) / 2 ^ 8 = 0 := by
      rw [Nat.xor_div_two_pow, show 2 * a.toNat / 2 ^ 8 = 1 by omega]
      decide
    rw [if_neg (by omega), BitVec.toNat_setWidth, BitVec.toNat_xor, hshift]
    exact Nat.mod_eq_of_lt (by omega : 2 * a.toNat ^^^ 0x11B < 2 ^ 8)
  case isFalse h7 =>
    have hlt : a.toNat < 128 := by
      by_contra hge
      exact h7 (hbit.trans (decide_eq_true (by omega)))
    rw [if_pos hlt, BitVec.toNat_setWidth, hshift]
    omega

/-- `x^k` is 1 doubled `k` times. -/
theorem twoPow_eq_xtime : ∀ k < 8, BitVec.twoPow 8 k = xtime^[k] 1 := by decide

/-! ## Sums over the set bits of a number -/

/-- `p` plus the `v i` of the positions `i` in `l` at which `b` has a bit: the shape of both products of R113. -/
def xorOverBits {m n : Nat} (v : Nat → BitVec n) (l : List Nat) (p : BitVec n) (b : BitVec m) : BitVec n :=
  l.foldl (fun p i => if b.getLsbD i then p ^^^ v i else p) p

theorem xorOverBits_xor {m n : Nat} (v : Nat → BitVec n) (b c : BitVec m) (l : List Nat) :
    ∀ p q : BitVec n, xorOverBits v l (p ^^^ q) (b ^^^ c) = xorOverBits v l p b ^^^ xorOverBits v l q c := by
  induction l with
  | nil => exact fun _ _ => rfl
  | cons i l ih =>
    intro p q
    have hstep : (if (b ^^^ c).getLsbD i then p ^^^ q ^^^ v i else p ^^^ q) =
        (if b.getLsbD i then p ^^^ v i else p) ^^^ (if c.getLsbD i then q ^^^ v i else q) := by
      rw [BitVec.getLsbD_xor, ite_xor_bits]
    exact (congrArg (xorOverBits v l · (b ^^^ c)) hstep).trans (ih _ _)

theorem xorOverBits_xorAdditive {m n : Nat} (v : Nat → BitVec n) (l : List Nat) :
    XorAdditive (xorOverBits (m := m) v l 0) := fun b c => by
  simpa using xorOverBits_xor v b c l 0 0

theorem xorOverBits_twoPow {n : Nat} (v : Nat → BitVec n) : ∀ k < 8,
    xorOverBits v (List.range 8) 0 (BitVec.twoPow 8 k) = v k := by
  intro k hk
  interval_cases k <;> exact BitVec.zero_xor

/-! ## Multiplication (R113) -/

/-- `n` steps of the loop from bit `i` add the doublings of `a` at the next `n` bits of `b`. -/
theorem gfMulLoop_eq_xorOverBits (a b : Byte) (n : Nat) : ∀ (i : Nat) (p : Byte),
    gfMulLoop b n i p (xtime^[i] a) = xorOverBits (xtime^[·] a) (List.range' i n) p b := by
  induction n with
  | zero => exact fun _ _ => rfl
  | succ n ih =>
    intro i p
    rw [gfMulLoop, ← Function.iterate_succ_apply' xtime, ih]
    rfl

theorem gfMul_eq_xorOverBits (a b : Byte) : gfMul a b = xorOverBits (xtime^[·] a) (List.range 8) 0 b :=
  gfMulLoop_eq_xorOverBits a b 8 0 0

/-- Multiplying by `x^k` is doubling `k` times. -/
theorem gfMul_twoPow (a : Byte) {k : Nat} (hk : k < 8) : gfMul a (BitVec.twoPow 8 k) = xtime^[k] a := by
  rw [gfMul_eq_xorOverBits, xorOverBits_twoPow _ k hk]

theorem gfMul_xorAdditive_right (a : Byte) : XorAdditive (gfMul a) := by
  rw [funext (gfMul_eq_xorOverBits a)]
  exact xorOverBits_xorAdditive _ _

theorem gfMul_xorAdditive_left (b : Byte) : XorAdditive (gfMul · b) := fun a a' =>
  (gfMul_xorAdditive_right (a ^^^ a')).ext ((gfMul_xorAdditive_right a).xor (gfMul_xorAdditive_right a'))
    (fun k hk => by simp only [gfMul_twoPow _ hk, xtime_xorAdditive.iterate k a a']) b

theorem gfMul_zero (a : Byte) : gfMul a 0 = 0 := (gfMul_xorAdditive_right a).map_zero

/-- On powers of `x` both orders are 1 doubled `j + k` times. -/
theorem gfMul_comm (a b : Byte) : gfMul a b = gfMul b a := by
  refine (gfMul_xorAdditive_right a).ext (gfMul_xorAdditive_left a) (fun k hk => ?_) b
  refine (gfMul_xorAdditive_left _).ext (gfMul_xorAdditive_right _) (fun j hj => ?_) a
  rw [gfMul_twoPow _ hk, gfMul_twoPow _ hj, twoPow_eq_xtime j hj, twoPow_eq_xtime k hk, ← Function.iterate_add_apply,
    ← Function.iterate_add_apply, Nat.add_comm]

theorem gfMul_one (a : Byte) : gfMul a 1 = a := gfMul_twoPow a (k := 0) (by decide)

theorem gfMul_iterate_xtime (a b : Byte) (k : Nat) : gfMul a (xtime^[k] b) = xtime^[k] (gfMul a b) := by
  rw [gfMul_comm, gfMul_comm a b]
  refine (gfMul_xorAdditive_right _).ext ((xtime_xorAdditive.iterate k).comp (gfMul_xorAdditive_right b))
    (fun j hj => ?_) a
  rw [gfMul_twoPow _ hj, gfMul_twoPow _ hj, ← Function.iterate_add_apply, ← Function.iterate_add_apply,
    Nat.add_comm]

theorem gfMul_assoc (a b c : Byte) : gfMul a (gfMul b c) = gfMul (gfMul a b) c := by
  refine ((gfMul_xorAdditive_right a).comp (gfMul_xorAdditive_right b)).ext (gfMul_xorAdditive_right _)
    (fun k hk => ?_) c
  rw [gfMul_twoPow _ hk, gfMul_twoPow _ hk, gfMul_iterate_xtime]

/-! ## The polynomial product and its reduction (R113) -/

theorem polyReduce_xorAdditive : XorAdditive polyReduce := by
  have htruncate : XorAdditive (BitVec.setWidth (w := 15) 8) := fun _ _ => BitVec.setWidth_xor
  refine htruncate.comp (XorAdditive.foldl (fun d a b => ?_) _)
  simp only [BitVec.getLsbD_xor, ite_xor_bits]

theorem polyReduce_shiftLeft_twoPow : ∀ k < 8, ∀ j < 8,
    polyReduce ((BitVec.twoPow 8 j).setWidth 15 <<< k) = xtime^[k] (BitVec.twoPow 8 j) := by
  decide +kernel

/-- Shifting by `k` and reducing is doubling `k` times. -/
theorem polyReduce_shiftLeft (a : Byte) {k : Nat} (hk : k < 8) :
    polyReduce (a.setWidth 15 <<< k) = xtime^[k] a := by
  have hshift : XorAdditive (fun a : Byte => a.setWidth 15 <<< k) := fun a b => by
    simp only [BitVec.setWidth_xor, BitVec.shiftLeft_xor_distrib]
  exact (polyReduce_xorAdditive.comp hshift).ext (xtime_xorAdditive.iterate k) (polyReduce_shiftLeft_twoPow k hk) a

theorem gfMul_eq_polyReduce (a b : Byte) : gfMul a b = polyReduce (polyProduct a b) := by
  refine (gfMul_xorAdditive_right a).ext (polyReduce_xorAdditive.comp (xorOverBits_xorAdditive _ _))
    (fun k hk => ?_) b
  rw [gfMul_twoPow _ hk, xorOverBits_twoPow _ k hk, polyReduce_shiftLeft a hk]

/-! ## Inverses (R115, R116) -/

/-- Evaluated byte by byte. This is the one place where it matters that `POLY` is irreducible. -/
theorem gfMul_gfPow254 : ∀ a : Byte, a ≠ 0 → gfMul a (gfPow254 a) = 1 := by decide +kernel

theorem gfInv_of_ne_zero {a : Byte} (ha : a ≠ 0) : gfInv a = some (gfPow254 a) := if_neg ha

theorem gfInv0_of_ne_zero {a : Byte} (ha : a ≠ 0) : gfInv0 a = gfPow254 a := by
  rw [gfInv0, gfInv_of_ne_zero ha, Option.getD_some]

theorem gfMul_gfInv0 {a : Byte} (ha : a ≠ 0) : gfMul a (gfInv0 a) = 1 := by
  rw [gfInv0_of_ne_zero ha, gfMul_gfPow254 a ha]

theorem gfInv0_gfMul_cancel {a : Byte} (ha : a ≠ 0) (b : Byte) : gfMul (gfInv0 a) (gfMul a b) = b := by
  rw [gfMul_assoc, gfMul_comm (gfInv0 a), gfMul_gfInv0 ha, gfMul_comm, gfMul_one]

theorem eq_gfInv0_of_gfMul_eq_one {a b : Byte} (ha : a ≠ 0) (h : gfMul a b = 1) : b = gfInv0 a := by
  rw [← gfInv0_gfMul_cancel ha b, h, gfMul_one]

theorem gfMul_eq_zero_iff {a b : Byte} : gfMul a b = 0 ↔ a = 0 ∨ b = 0 := by
  constructor
  · intro h
    by_cases ha : a = 0
    · exact .inl ha
    · right
      rw [← gfInv0_gfMul_cancel ha b, h, gfMul_zero]
  · rintro (rfl | rfl)
    · rw [gfMul_comm, gfMul_zero]
    · exact gfMul_zero a

end Sys2Proof.Machine

namespace Sys2Proof.Proofs

open Sys2Proof.Machine

/-- Settles O23: both products are additive in `b`, and at `x^k` both are `a` doubled `k` times; the sum over the set
bits is the loop. -/
theorem multiplicationIsTheReducedPolynomialProduct : Obligations.MultiplicationIsTheReducedPolynomialProduct :=
  fun a b => ⟨gfMul_eq_polyReduce a b, gfMul_eq_xorOverBits a b⟩

/-- Settles O24: the ring laws come from the powers of `x`, the rest from the inverse. -/
theorem fieldLaws : Obligations.FieldLaws :=
  ⟨gfMul_comm, gfMul_assoc, gfMul_xorAdditive_right, fun _ _ => gfMul_eq_zero_iff,
    fun a ha => ⟨gfInv0 a, gfMul_gfInv0 ha, fun _ => eq_gfInv0_of_gfMul_eq_one ha⟩⟩

/-- Settles O22: a doubling read as a number. -/
theorem doublingReducesByThePolynomial : Obligations.DoublingReducesByThePolynomial := xtime_toNat

/-- Settles O25: by the inverse of a non-zero byte and its uniqueness. -/
theorem inverseOfNonzeroBytes : Obligations.InverseOfNonzeroBytes :=
  ⟨rfl, rfl, fun _ ha => ⟨by rw [gfInv_of_ne_zero ha, gfInv0_of_ne_zero ha], gfMul_gfInv0 ha,
    fun _ => eq_gfInv0_of_gfMul_eq_one ha⟩⟩

/-- Settles O26: with the constant as the right operand, the loop adds the doublings of `a` at the constant's set
bits; only their order is left. -/
theorem constantMultipliersByDoubling : Obligations.ConstantMultipliersByDoubling := by
  rintro a _ _ _ rfl rfl rfl
  simp only [gfMul_comm _ a]
  refine ⟨?_, ?_, ?_, ?_, ?_, ?_⟩ <;> simp [gfMul, gfMulLoop] <;> ac_rfl

end Sys2Proof.Proofs
end

section
/-!
PROOFS. The S-box family (spec 41_sbox_tables.md). The tables are compared with the construction entry by entry; that
they undo each other comes from the construction: the field inverse and the affine map are each undone.
-/

namespace Sys2Proof.Machine

/-! ## Rotations and the affine map (R130, R132) -/

/-- `rotl8` (R130) bit by bit. -/
theorem getLsbD_rotateLeft_byte (x : Byte) {k i : Nat} (hk : k < 8) (hi : i < 8) :
    (x.rotateLeft k).getLsbD i = x.getLsbD ((i + (8 - k)) % 8) := by
  rw [BitVec.getLsbD_rotateLeft, Nat.mod_eq_of_lt hk]
  by_cases hik : i < k
  · have hwrapped : (i + (8 - k)) % 8 = 8 - k + i := by omega
    simp only [hik, hwrapped, decide_true, cond_true]
  · have hkept : (i + (8 - k)) % 8 = i - k := by omega
    simp only [hik, hi, hkept, decide_true, decide_false, cond_false, Bool.true_and]

theorem rotateLeft_xorAdditive {k : Nat} (hk : k < 8) : XorAdditive (fun x : Byte => x.rotateLeft k) := fun x y =>
  BitVec.eq_of_getLsbD_eq fun i hi => by
    simp only [BitVec.getLsbD_xor, getLsbD_rotateLeft_byte _ hk hi]

/-- `affine` (R130) without its constant. -/
def affineLinear (x : Byte) : Byte :=
  x ^^^ x.rotateLeft 1 ^^^ x.rotateLeft 2 ^^^ x.rotateLeft 3 ^^^ x.rotateLeft 4

/-- `inv_affine` (R132) without its constant. -/
def invAffineLinear (y : Byte) : Byte := y.rotateLeft 1 ^^^ y.rotateLeft 3 ^^^ y.rotateLeft 6

theorem affine_eq (x : Byte) : affine x = affineLinear x ^^^ 0x63 := rfl

theorem invAffine_eq (y : Byte) : invAffine y = invAffineLinear y ^^^ 0x05 := rfl

theorem xorAdditive_id {n : Nat} : XorAdditive (fun x : BitVec n => x) := fun _ _ => rfl

theorem affineLinear_xorAdditive : XorAdditive affineLinear :=
  (((xorAdditive_id.xor (rotateLeft_xorAdditive (by decide))).xor (rotateLeft_xorAdditive (by decide))).xor
    (rotateLeft_xorAdditive (by decide))).xor (rotateLeft_xorAdditive (by decide))

theorem invAffineLinear_xorAdditive : XorAdditive invAffineLinear :=
  ((rotateLeft_xorAdditive (by decide)).xor (rotateLeft_xorAdditive (by decide))).xor
    (rotateLeft_xorAdditive (by decide))

theorem invAffineLinear_affineLinear (x : Byte) : invAffineLinear (affineLinear x) = x :=
  (invAffineLinear_xorAdditive.comp affineLinear_xorAdditive).ext xorAdditive_id (by decide) x

theorem affineLinear_invAffineLinear (y : Byte) : affineLinear (invAffineLinear y) = y :=
  (affineLinear_xorAdditive.comp invAffineLinear_xorAdditive).ext xorAdditive_id (by decide) y

/-- The constants cancel: 0x05 is the linear part of `inv_affine` at 0x63. -/
theorem invAffine_affine (x : Byte) : invAffine (affine x) = x := by
  have hconst : invAffineLinear 0x63 = 0x05 := by decide
  rw [affine_eq, invAffine_eq, invAffineLinear_xorAdditive, invAffineLinear_affineLinear, hconst, BitVec.xor_assoc,
    BitVec.xor_self, BitVec.xor_zero]

theorem affine_invAffine (y : Byte) : affine (invAffine y) = y := by
  have hconst : affineLinear 0x05 = 0x63 := by decide
  rw [affine_eq, invAffine_eq, affineLinear_xorAdditive, affineLinear_invAffineLinear, hconst, BitVec.xor_assoc,
    BitVec.xor_self, BitVec.xor_zero]

/-! ## The field inverse is its own inverse (R116) -/

theorem gfInv0_gfInv0 (a : Byte) : gfInv0 (gfInv0 a) = a := by
  by_cases ha : a = 0
  · rw [ha]
    rfl
  · have hprod : gfMul (gfInv0 a) a = 1 := by rw [gfMul_comm, gfMul_gfInv0 ha]
    have hne : gfInv0 a ≠ 0 := by
      intro h0
      rw [h0, gfMul_comm, gfMul_zero] at hprod
      exact absurd hprod (by decide)
    exact (eq_gfInv0_of_gfMul_eq_one hne hprod).symm

/-! ## The literal tables (R133, R134) -/

/-- The entries are literals, so each table can only be compared with its construction byte by byte. -/
theorem sbox_eq_affine : ∀ x : Byte, sbox x = affine (gfInv0 x) := by decide +kernel

theorem invSbox_eq_gfInv0 : ∀ y : Byte, invSbox y = gfInv0 (invAffine y) := by decide +kernel

theorem invSbox_sbox (x : Byte) : invSbox (sbox x) = x := by
  rw [invSbox_eq_gfInv0, sbox_eq_affine, invAffine_affine, gfInv0_gfInv0]

theorem sbox_invSbox (y : Byte) : sbox (invSbox y) = y := by
  rw [sbox_eq_affine, invSbox_eq_gfInv0, gfInv0_gfInv0, affine_invAffine]

/-- Read off the table, as R131 does. -/
theorem sbox_no_fixed_point : ∀ x : Byte, sbox x ≠ x ∧ sbox x ≠ x ^^^ 0xFF := by decide +kernel

end Sys2Proof.Machine

namespace Sys2Proof.Proofs

open Sys2Proof.Machine

/-- Settles O27: with the rotations in descending order, bit `i` of a rotation by `k` is bit `i + (8 - k)` (modulo 8)
of the byte. -/
theorem affineTransformationBitByBit : Obligations.AffineTransformationBitByBit := by
  intro x i hi
  have horder : affine x =
      x ^^^ x.rotateLeft 4 ^^^ x.rotateLeft 3 ^^^ x.rotateLeft 2 ^^^ x.rotateLeft 1 ^^^ 0x63 := by
    unfold affine
    ac_rfl
  simp only [horder, BitVec.getLsbD_xor, getLsbD_rotateLeft_byte x _ hi, Nat.reduceLT, Nat.reduceSub]

/-- Settles O28: the tables are the constructed ones, and `gf_inv0` and `affine` are undone by `gf_inv0` and
`inv_affine`. -/
theorem sboxTablesFollowConstruction : Obligations.SboxTablesFollowConstruction :=
  ⟨sbox_eq_affine, invSbox_sbox, sbox_invSbox, invSbox_eq_gfInv0, sbox_no_fixed_point⟩

end Sys2Proof.Proofs
end

section
/-!
PROOFS. The key schedule family (spec 42_key_schedule.md): the expansion is a sequence of words that only grows at its
end, so a word of it is read off the step that appends it; and what `MAKEKEY` makes of its operands.
-/

namespace Sys2Proof.Machine

/-! ## The schedule as it grows (R156) -/

/-- The schedule after `n` steps of the loop of R156, in the order of `W`: the `nk` words `raw` of the key, then `n`
more. -/
def scheduleAfter (nk : Nat) (raw : List Word) (n : Nat) : List Word := (expandLoop nk n nk raw.reverse).reverse

theorem keyExpansion_eq_scheduleAfter {key : List Byte} {nk : Nat} (hkey : key.length = 4 * nk) (nb : Nat) :
    keyExpansion key nb = scheduleAfter nk (bytesToWords key) (scheduleLength nk nb - nk) := by
  obtain rfl : key.length / 4 = nk := by omega
  rfl

/-- The last of `n + 1` steps of the loop appends to what the `n` others leave. -/
theorem expandLoop_succ (nk : Nat) : ∀ (n i : Nat) (acc : List Word),
    expandLoop nk (n + 1) i acc = nextScheduleWord nk (i + n) (expandLoop nk n i acc) :: expandLoop nk n i acc
  | 0, _, _ => rfl
  | n + 1, i, acc => by
    rw [expandLoop, expandLoop_succ nk n, Nat.add_right_comm, Nat.add_assoc, expandLoop]

section Growth

variable {nk : Nat} {raw : List Word}

theorem scheduleAfter_zero : scheduleAfter nk raw 0 = raw := List.reverse_reverse raw

theorem scheduleAfter_succ (n : Nat) : scheduleAfter nk raw (n + 1) =
    scheduleAfter nk raw n ++ [nextScheduleWord nk (nk + n) (scheduleAfter nk raw n).reverse] := by
  simp [scheduleAfter, expandLoop_succ]

@[simp] theorem scheduleAfter_length (n : Nat) : (scheduleAfter nk raw n).length = raw.length + n := by
  simp [scheduleAfter, expandLoop_length]

/-- Later steps change no word that stands. -/
theorem scheduleAfter_getElem?_of_le {m n i : Nat} (hmn : m ≤ n) (hi : i < raw.length + m) :
    (scheduleAfter nk raw n)[i]? = (scheduleAfter nk raw m)[i]? := by
  induction n, hmn using Nat.le_induction with
  | base => rfl
  | succ n hmn ih => rw [scheduleAfter_succ, List.getElem?_append_left (by rw [scheduleAfter_length]; omega), ih]

/-- A word that two schedules of one key have is the same word. -/
theorem scheduleAfter_getElem?_congr {m n i : Nat} (hm : i < raw.length + m) (hn : i < raw.length + n) :
    (scheduleAfter nk raw m)[i]? = (scheduleAfter nk raw n)[i]? := by
  rcases Nat.le_total m n with hmn | hnm
  · exact (scheduleAfter_getElem?_of_le hmn hm).symm
  · exact scheduleAfter_getElem?_of_le hnm hn

/-- The `k`-th newest word after `m` steps, as the finished schedule holds it. -/
theorem scheduleAfter_reverse_getD {m n k : Nat} {v : Word} (hmn : m ≤ n) (hk : k < raw.length + m)
    (hv : (scheduleAfter nk raw n)[raw.length + m - 1 - k]? = some v) :
    (scheduleAfter nk raw m).reverse.getD k Word.zero = v := by
  rw [scheduleAfter_getElem?_of_le hmn (by omega)] at hv
  rw [List.getD_eq_getElem?_getD, List.getElem?_reverse (by rwa [scheduleAfter_length]), scheduleAfter_length, hv]
  rfl

/-- The recurrence of R156: a word after the first `nk` is made of the one `nk` before it and the one before it. -/
theorem scheduleAfter_getElem?_recurrence {n i : Nat} {o p : Word} (hraw : raw.length = nk) (hpos : 0 < nk)
    (hi : nk ≤ i) (hin : i < nk + n) (ho : (scheduleAfter nk raw n)[i - nk]? = some o)
    (hp : (scheduleAfter nk raw n)[i - 1]? = some p) :
    (scheduleAfter nk raw n)[i]? = some (o.xor (scheduleTemp nk i p)) := by
  subst hraw
  obtain ⟨m, rfl⟩ := Nat.exists_eq_add_of_le hi
  have hlast : (scheduleAfter raw.length raw n)[raw.length + m]? =
      some (nextScheduleWord raw.length (raw.length + m) (scheduleAfter raw.length raw m).reverse) := by
    rw [scheduleAfter_getElem?_of_le (m := m + 1) (by omega) (by omega), scheduleAfter_succ,
      ← scheduleAfter_length (nk := raw.length) m, List.getElem?_concat_length]
  have hmn : m ≤ n := by omega
  have hindex : raw.length + m - raw.length = raw.length + m - 1 - (raw.length - 1) := by omega
  have hold := scheduleAfter_reverse_getD hmn (by omega) (hindex ▸ ho)
  have hprev := scheduleAfter_reverse_getD (k := 0) hmn (by omega) hp
  rw [hlast, nextScheduleWord, hold, hprev]

end Growth

/-! ## The words of an expansion -/

section Expansion

variable {key : List Byte} {nk nb : Nat}

/-- The three branches of R156 with `RotWord`, `SubWord` and the round constant written out (R153 to R155). -/
theorem xor_scheduleTemp (nk i : Nat) (o p : Word) : o.xor (scheduleTemp nk i p) =
    if i % nk = 0 then
      ⟨o.b0 ^^^ sbox p.b1 ^^^ rcon (i / nk), o.b1 ^^^ sbox p.b2, o.b2 ^^^ sbox p.b3, o.b3 ^^^ sbox p.b0⟩
    else if nk > 6 ∧ i % nk = 4 then
      ⟨o.b0 ^^^ sbox p.b0, o.b1 ^^^ sbox p.b1, o.b2 ^^^ sbox p.b2, o.b3 ^^^ sbox p.b3⟩
    else ⟨o.b0 ^^^ p.b0, o.b1 ^^^ p.b1, o.b2 ^^^ p.b2, o.b3 ^^^ p.b3⟩ := by
  unfold scheduleTemp
  split_ifs
  · simp [Word.xor, subWord, Word.map, rotWord, rconWord, BitVec.xor_assoc]
  · rfl
  · rfl

/-- There is room for the words of the key in every schedule. -/
theorem le_scheduleLength (hnb : 0 < nb) : nk ≤ scheduleLength nk nb :=
  calc nk ≤ max nk nb + 6 + 1 := by omega
    _ ≤ scheduleLength nk nb := Nat.le_mul_of_pos_left _ hnb

theorem bytesToWords_length_of_words (hkey : key.length = 4 * nk) : (bytesToWords key).length = nk := by
  rw [bytesToWords_length]
  omega

/-- The expansion has `NW` words (R152). -/
theorem keyExpansion_length_of_words (hkey : key.length = 4 * nk) (hnb : 0 < nb) :
    (keyExpansion key nb).length = scheduleLength nk nb := by
  obtain rfl : key.length / 4 = nk := by omega
  exact keyExpansion_length (le_scheduleLength hnb)

/-- The first `nk` words are the bytes of the key in order (R156). -/
theorem keyExpansion_getElem?_of_lt {i : Nat} (hkey : key.length = 4 * nk) (hi : i < nk) :
    (keyExpansion key nb)[i]? = some
      ⟨key.getD (4 * i) 0, key.getD (4 * i + 1) 0, key.getD (4 * i + 2) 0, key.getD (4 * i + 3) 0⟩ := by
  have hraw : i < (bytesToWords key).length := by rwa [bytesToWords_length_of_words hkey]
  rw [keyExpansion_eq_scheduleAfter hkey, scheduleAfter_getElem?_of_le (Nat.zero_le _) hraw, scheduleAfter_zero,
    List.getElem?_eq_getElem hraw, ← List.getD_eq_getElem _ Word.zero hraw, bytesToWords_getD hkey hi,
    Nat.add_comm 1, Nat.add_comm 2, Nat.add_comm 3]

/-- A later word is the word `nk` before it, exclusive-or `t` of the preceding word (R156). -/
theorem keyExpansion_getElem?_recurrence {i : Nat} {o p : Word} (hkey : key.length = 4 * nk) (hnk : 0 < nk)
    (hi : nk ≤ i) (hlt : i < scheduleLength nk nb) (ho : (keyExpansion key nb)[i - nk]? = some o)
    (hp : (keyExpansion key nb)[i - 1]? = some p) :
    (keyExpansion key nb)[i]? = some (o.xor (scheduleTemp nk i p)) := by
  rw [keyExpansion_eq_scheduleAfter hkey] at ho hp ⊢
  exact scheduleAfter_getElem?_recurrence (bytesToWords_length_of_words hkey) hnk hi (by omega) ho hp

/-- For one key the block size occurs in the length alone: a word that two expansions have is the same word (R156). -/
theorem keyExpansion_getElem?_congr {nb' i : Nat} (hkey : key.length = 4 * nk)
    (hi : i < (keyExpansion key nb).length) (hi' : i < (keyExpansion key nb').length) :
    (keyExpansion key nb)[i]? = (keyExpansion key nb')[i]? := by
  rw [keyExpansion_eq_scheduleAfter hkey, scheduleAfter_length] at hi hi'
  rw [keyExpansion_eq_scheduleAfter hkey, keyExpansion_eq_scheduleAfter hkey]
  exact scheduleAfter_getElem?_congr hi hi'

end Expansion

/-! ## Round counts and round constants -/

/-- Larger sizes never have fewer rounds (R151). -/
theorem roundCount_mono {kl kl' bs bs' : Nat} (hkl : kl ≤ kl') (hbs : bs ≤ bs') :
    roundCount kl bs ≤ roundCount kl' bs' := by
  unfold roundCount
  gcongr

theorem ten_le_roundCount {kl : Nat} (hkl : SizeOk kl) (bs : Nat) : 10 ≤ roundCount kl bs := by
  unfold roundCount
  omega

/-- The recurrence of R155, from index 1 on. -/
theorem rcon_succ {j : Nat} (hj : 1 ≤ j) : rcon (j + 1) = xtime (rcon j) := by
  obtain ⟨k, rfl⟩ := Nat.exists_eq_add_of_le' hj
  rfl

/-! ## `MAKEKEY` with supported sizes -/

/-- The chain-init of R158: zero bytes when `Z = 1`, else what follows the key in `DIN`. -/
theorem chainInitOperand_eq {z : Bool} {kl bs : Nat} {din : List Byte} (hbs : SizeOk bs)
    (hdin : din.length = makeKeyDinLength z kl bs) :
    chainInitOperand z din kl bs = if z = true then List.replicate bs 0 else din.drop kl := by
  cases z with
  | true => exact chainInitOperand_null hbs din kl
  | false => exact List.take_of_length_le (by simp [hdin, makeKeyDinLength])

/-- `MAKEKEY` that passes its checks establishes the session of its operands, in any state (R158). -/
theorem execMakeKey_of_din {z : Bool} {kl bs : Nat} {s : State} (hkl : SizeOk kl) (hbs : SizeOk bs)
    (hdin : s.cur.din.length = makeKeyDinLength z kl bs) : execMakeKey z kl bs s =
      .next ((s.establish kl bs (keyOperand s.cur.din kl) (chainInitOperand z s.cur.din kl bs)).respond
        (okResponse 0 [])) := by
  rw [execMakeKey_of_sizeOk hkl hbs, withDin_of_length hdin, succeed]

end Sys2Proof.Machine

namespace Sys2Proof.Proofs

open Sys2Proof.Machine

/-- Settles O19: a step of the loop only appends, so every word stands as the step that appended it made it, whatever
the block size lets follow. -/
theorem keyExpansionFollowsTheRecurrence : Obligations.KeyExpansionFollowsTheRecurrence := by
  refine ⟨fun b0 b1 b2 b3 => ⟨rfl, rfl⟩, fun key nk nb hkey hnk hnb => ⟨?_, fun i hi => ?_, ?_⟩, ?_⟩
  · exact keyExpansion_length_of_words hkey (by omega)
  · exact keyExpansion_getElem?_of_lt hkey hi
  · intro i o p hi hlt ho hp
    rw [← xor_scheduleTemp]
    exact keyExpansion_getElem?_recurrence hkey (by omega) hi hlt ho hp
  · intro key nb nb' i hkey _ _ hi hi'
    exact keyExpansion_getElem?_congr (nk := key.length / 4) (by omega) hi hi'

/-- Settles O16: an unsupported size is answered before `DIN` is read; otherwise the session is that of the operands,
and these are the two parts of `DIN`, or the key and zero bytes. -/
theorem makeKeyEstablishesTheSession : Obligations.MakeKeyEstablishesTheSession := by
  intro s z kl bs chainInit
  refine ⟨fun hkl => execMakeKey_of_badKeyLength hkl z bs s, fun hkl hbs => execMakeKey_of_badBlockSize hkl hbs z s,
    fun hkl hbs hdin hchain => ?_⟩
  have hlen : s.cur.din.length = makeKeyDinLength z kl bs := hdin
  rw [hchain, ← chainInitOperand_eq hbs hlen]
  exact execMakeKey_of_din hkl hbs hlen

/-- Settles O18: `MAKEKEY` reads its operands only and writes every register, so the port fixes what it leaves. -/
theorem makeKeyLeavesNothingOfTheOldSession : Obligations.MakeKeyLeavesNothingOfTheOldSession := by
  intro s s' z kl bs hkl hbs hcur hin hresp hdin
  refine ⟨_, execMakeKey_of_din hkl hbs hdin, ?_⟩
  rw [exec, execMakeKey_of_din hkl hbs (by rwa [hcur]), hcur, State.establish_eq_of_port hin hresp hcur]

/-- Settles O20: the table is evaluated, and the bound and the monotony hold of the formula. -/
theorem roundCountTable : Obligations.RoundCountTable :=
  ⟨by decide, fun _ _ => rfl, fun _ _ _ _ hkl _ _ _ hkl' hbs' => ⟨ten_le_roundCount hkl _, roundCount_mono hkl' hbs'⟩⟩

/-- Settles O21: the recurrence is that of the powers of `0x02`, and the thirty values are evaluated. -/
theorem roundConstants : Obligations.RoundConstants :=
  ⟨rfl, fun _ hj => rcon_succ hj, fun _ => rfl, by decide⟩

end Sys2Proof.Proofs
end

section
/-!
PROOFS. The round engine family (spec 43_round_engine.md), first part: what each round step computes, and that each
inverse step undoes its forward step. A state is compared column by column, a column byte by byte.
-/

namespace Sys2Proof

/-- The byte in row `j` of a column (R180). -/
def Word.byte (v : Word) (j : Nat) : Byte := v.toBytes.getD j 0

theorem Word.ext_byte {v w : Word} (h : ∀ j < 4, v.byte j = w.byte j) : v = w := by
  cases v
  cases w
  rw [Word.mk.injEq]
  exact ⟨h 0 (by decide), h 1 (by decide), h 2 (by decide), h 3 (by decide)⟩

theorem Word.xor_cancel_right (v k : Word) : (v.xor k).xor k = v := by
  simp [Word.xor]

theorem Word.map_leftInverse {f g : Byte → Byte} (h : Function.LeftInverse g f) :
    Function.LeftInverse (Word.map g) (Word.map f) := fun v => by
  simp only [Word.map, h _]

end Sys2Proof

namespace Sys2Proof.Machine

/-! ## Columns -/

theorem column_eq_getElem {st : List Word} {c : Nat} (hc : c < st.length) : column st c = st[c] :=
  List.getD_eq_getElem st Word.zero hc

theorem ext_column {a b : List Word} (hlen : a.length = b.length)
    (h : ∀ c < a.length, column a c = column b c) : a = b :=
  List.ext_getElem hlen fun c ha hb => by rw [← column_eq_getElem ha, ← column_eq_getElem hb, h c ha]

/-- A step that works column by column. -/
theorem column_map (f : Word → Word) {st : List Word} {c : Nat} (hc : c < st.length) :
    column (st.map f) c = f (column st c) := by
  rw [column_eq_getElem (by simpa using hc), column_eq_getElem hc, List.getElem_map]

/-- A step that computes every column from its index. -/
theorem column_map_range (f : Nat → Word) {nb c : Nat} (hc : c < nb) : column ((List.range nb).map f) c = f c := by
  rw [column_eq_getElem (by simpa using hc), List.getElem_map, List.getElem_range]

/-- Byte `j + 4c` of the stored state is the byte in row `j` of column `c` (R53, R180). -/
theorem storeState_getD {j : Nat} (hj : j < 4) : ∀ (st : List Word) (c : Nat),
    (storeState st).getD (j + 4 * c) 0 = (column st c).byte j
  | [], c => by interval_cases j <;> rfl
  | v :: st, 0 => by interval_cases j <;> rfl
  | v :: st, c + 1 => by
    simpa [storeState, column, Nat.mul_add, ← Nat.add_assoc] using storeState_getD hj st c

/-! ## `AddRoundKey` (R181) -/

theorem wordsToBytes_zipWith_xor : ∀ a b : List Word,
    wordsToBytes (List.zipWith Word.xor a b) = bytesXor (wordsToBytes a) (wordsToBytes b)
  | [], b => rfl
  | v :: a, [] => rfl
  | v :: a, w :: b => by
    simpa [bytesXor, Word.xor] using wordsToBytes_zipWith_xor a b

theorem zipWith_xor_cancel_right : ∀ a k : List Word, a.length = k.length →
    List.zipWith Word.xor (List.zipWith Word.xor a k) k = a
  | [], [], _ => rfl
  | v :: a, w :: k, h => by
    simp [Word.xor_cancel_right, zipWith_xor_cancel_right a k (by simpa using h)]

section AddRoundKey

variable {w st : List Word} {nb r : Nat} (hw : (r + 1) * nb ≤ w.length) (hst : st.length = nb)
include hw hst

/-- Column `c` meets word `r * Nb + c` of the schedule. -/
theorem column_addRoundKey {c : Nat} (hc : c < nb) :
    column (addRoundKey w nb r st) c = (column st c).xor (w.getD (r * nb + c) Word.zero) := by
  have hword : r * nb + c < w.length := by
    rw [Nat.add_mul] at hw
    omega
  rw [column_eq_getElem (by rwa [addRoundKey_length hw hst]), column_eq_getElem (hst ▸ hc),
    List.getD_eq_getElem w Word.zero hword]
  simp [addRoundKey, subkey]

theorem addRoundKey_addRoundKey : addRoundKey w nb r (addRoundKey w nb r st) = st :=
  zipWith_xor_cancel_right st (subkey w nb r) (by rw [hst, subkey_length hw])

end AddRoundKey

/-! ## `SubBytes` and `InvSubBytes` (R182, R185) -/

theorem invSubBytes_subBytes : Function.LeftInverse invSubBytes subBytes :=
  (Word.map_leftInverse invSbox_sbox).list_map

theorem subBytes_invSubBytes : Function.LeftInverse subBytes invSubBytes :=
  (Word.map_leftInverse sbox_invSbox).list_map

/-! ## `ShiftRows` and `InvShiftRows` (R183, R186) -/

/-- The widths of R180. -/
abbrev WidthOk (nb : Nat) : Prop := nb = 4 ∨ nb = 6 ∨ nb = 8

theorem shiftAmount_le {nb : Nat} (hnb : WidthOk nb) (j : Nat) : shiftAmount nb j ≤ nb := by
  match j with
  | 0 | 1 | 2 | 3 => rcases hnb with rfl | rfl | rfl <;> decide
  | j + 4 => simp [shiftAmount]

/-- The two column indices of R183 and R186 undo each other. -/
theorem sub_mod_add_mod {nb c a : Nat} (hc : c < nb) (ha : a ≤ nb) :
    ((c + nb - a) % nb + a) % nb = c ∧ ((c + a) % nb + nb - a) % nb = c := by
  constructor
  · rw [Nat.mod_add_mod, Nat.sub_add_cancel (by omega), Nat.add_mod_right, Nat.mod_eq_of_lt hc]
  · rw [Nat.add_sub_assoc ha, Nat.mod_add_mod, Nat.add_assoc, Nat.add_sub_cancel' ha, Nat.add_mod_right,
      Nat.mod_eq_of_lt hc]

section ShiftRows

variable {st : List Word} {c j : Nat} (hc : c < st.length) (hj : j < 4)
include hc hj

theorem column_shiftRows_byte : (column (shiftRows st) c).byte j =
    (column st ((c + shiftAmount st.length j) % st.length)).byte j := by
  rw [shiftRows, column_map_range _ hc]
  interval_cases j <;> rfl

theorem column_invShiftRows_byte : (column (invShiftRows st) c).byte j =
    (column st ((c + st.length - shiftAmount st.length j) % st.length)).byte j := by
  rw [invShiftRows, column_map_range _ hc]
  interval_cases j <;> rfl

end ShiftRows

section Inverse

variable {st : List Word} (hst : WidthOk st.length)
include hst

theorem invShiftRows_shiftRows : invShiftRows (shiftRows st) = st := by
  refine ext_column (by simp) fun c hc => Word.ext_byte fun j hj => ?_
  simp only [invShiftRows_length, shiftRows_length] at hc
  rw [column_invShiftRows_byte (by simpa using hc) hj, shiftRows_length,
    column_shiftRows_byte (Nat.mod_lt _ (by omega)) hj, (sub_mod_add_mod hc (shiftAmount_le hst j)).1]

theorem shiftRows_invShiftRows : shiftRows (invShiftRows st) = st := by
  refine ext_column (by simp) fun c hc => Word.ext_byte fun j hj => ?_
  simp only [invShiftRows_length, shiftRows_length] at hc
  rw [column_shiftRows_byte (by simpa using hc) hj, invShiftRows_length,
    column_invShiftRows_byte (Nat.mod_lt _ (by omega)) hj, (sub_mod_add_mod hc (shiftAmount_le hst j)).2]

end Inverse

/-! ## `MixColumns` and `InvMixColumns` (R184, R187)

Both matrices are circulant: a column times one of them is a product of polynomials modulo `x^4 + 1`, and that product
is associative. So the two steps undo each other because the product of their two polynomials is 1. -/

/-- The product of two columns as polynomials over GF(2^8) modulo `x^4 + 1`, `b0` the constant coefficient. -/
def columnMul (k a : Word) : Word :=
  ⟨gfMul k.b0 a.b0 ^^^ gfMul k.b3 a.b1 ^^^ gfMul k.b2 a.b2 ^^^ gfMul k.b1 a.b3,
   gfMul k.b1 a.b0 ^^^ gfMul k.b0 a.b1 ^^^ gfMul k.b3 a.b2 ^^^ gfMul k.b2 a.b3,
   gfMul k.b2 a.b0 ^^^ gfMul k.b1 a.b1 ^^^ gfMul k.b0 a.b2 ^^^ gfMul k.b3 a.b3,
   gfMul k.b3 a.b0 ^^^ gfMul k.b2 a.b1 ^^^ gfMul k.b1 a.b2 ^^^ gfMul k.b0 a.b3⟩

theorem gfMul_xor (a b c : Byte) : gfMul a (b ^^^ c) = gfMul a b ^^^ gfMul a c := gfMul_xorAdditive_right a b c

theorem xor_gfMul (a b c : Byte) : gfMul (a ^^^ b) c = gfMul a c ^^^ gfMul b c := gfMul_xorAdditive_left c a b

theorem one_gfMul (a : Byte) : gfMul 1 a = a := by rw [gfMul_comm, gfMul_one]

theorem zero_gfMul (a : Byte) : gfMul 0 a = 0 := by rw [gfMul_comm, gfMul_zero]

theorem columnMul_assoc (k l a : Word) : columnMul k (columnMul l a) = columnMul (columnMul k l) a := by
  simp only [columnMul, gfMul_xor, xor_gfMul, gfMul_assoc, Word.mk.injEq]
  exact ⟨by ac_rfl, by ac_rfl, by ac_rfl, by ac_rfl⟩

theorem one_columnMul (a : Word) : columnMul ⟨1, 0, 0, 0⟩ a = a := by
  simp only [columnMul, one_gfMul, zero_gfMul]
  simp

theorem mixColumn_eq_columnMul (a : Word) : mixColumn a = columnMul ⟨0x02, 0x01, 0x01, 0x03⟩ a := by
  simp only [mixColumn, columnMul, one_gfMul]

theorem invMixColumn_eq_columnMul (a : Word) : invMixColumn a = columnMul ⟨0x0E, 0x09, 0x0D, 0x0B⟩ a := rfl

theorem invMixColumn_mixColumn (a : Word) : invMixColumn (mixColumn a) = a := by
  have hproduct : columnMul ⟨0x0E, 0x09, 0x0D, 0x0B⟩ ⟨0x02, 0x01, 0x01, 0x03⟩ = ⟨1, 0, 0, 0⟩ := by decide
  rw [invMixColumn_eq_columnMul, mixColumn_eq_columnMul, columnMul_assoc, hproduct, one_columnMul]

theorem mixColumn_invMixColumn (a : Word) : mixColumn (invMixColumn a) = a := by
  have hproduct : columnMul ⟨0x02, 0x01, 0x01, 0x03⟩ ⟨0x0E, 0x09, 0x0D, 0x0B⟩ = ⟨1, 0, 0, 0⟩ := by decide
  rw [invMixColumn_eq_columnMul, mixColumn_eq_columnMul, columnMul_assoc, hproduct, one_columnMul]

theorem invMixColumns_mixColumns : Function.LeftInverse invMixColumns mixColumns :=
  Function.LeftInverse.list_map invMixColumn_mixColumn

theorem mixColumns_invMixColumns : Function.LeftInverse mixColumns invMixColumns :=
  Function.LeftInverse.list_map mixColumn_invMixColumn

end Sys2Proof.Machine

namespace Sys2Proof.Proofs

open Sys2Proof.Machine

/-- Settles O30: the addition is a `zipWith` of the columns with the words of the subkey. -/
theorem addRoundKeyXorsTheSubkey : Obligations.AddRoundKeyXorsTheSubkey := by
  intro w st nb r hst hw
  exact ⟨addRoundKey_length hw hst, fun c hc => column_addRoundKey hw hst hc,
    wordsToBytes_zipWith_xor st (subkey w nb r), addRoundKey_addRoundKey hw hst⟩

/-- Settles O31: both steps are read row by row, and for the way back the two column indices undo each other. -/
theorem shiftRowsMovesBytesByTheTable : Obligations.ShiftRowsMovesBytesByTheTable := by
  intro st nb j c shift hst hnb hj hc hshift
  subst hst
  have htable : shift = shiftAmount st.length j := by
    rw [hshift, shiftAmount]
    split <;> rfl
  have hback : (c + shift) % st.length < st.length := Nat.mod_lt _ (by omega)
  simp only [storeState_getD hj]
  refine ⟨?_, ?_⟩
  · rw [column_shiftRows_byte hc hj, htable]
  · rw [column_invShiftRows_byte hback hj, htable, (sub_mod_add_mod hc (shiftAmount_le hnb j)).2]

/-- Settles O32: the byte and column steps are maps over the columns, so their columns and inverses are those of one
column; the row steps undo each other by their column indices. -/
theorem inverseStepsUndoForwardSteps : Obligations.InverseStepsUndoForwardSteps := by
  refine ⟨fun st c a0 a1 a2 a3 hc hcol => ?_, fun st => ?_, fun st hst => ?_⟩
  · simp only [subBytes, invSubBytes, mixColumns, invMixColumns, column_map _ hc, hcol]
    exact ⟨rfl, rfl, rfl, rfl⟩
  · exact ⟨subBytes_length st, invSubBytes_length st, mixColumns_length st, invMixColumns_length st⟩
  · exact ⟨invSubBytes_subBytes st, subBytes_invSubBytes st, invShiftRows_shiftRows hst, shiftRows_invShiftRows hst,
      invMixColumns_mixColumns st, mixColumns_invMixColumns st⟩

end Sys2Proof.Proofs
end

section
/-!
PROOFS. The round engine family (spec 43_round_engine.md), second part: the two block functions (R188, R189, R193),
their known answers, and the block commands (R190, R191, R194).
-/

namespace Sys2Proof.Machine

/-! ## Runs of rounds -/

/-- The states after the rounds `1 .. k`, named, are the ascending fold. -/
theorem foldl_range'_eq {f : List Word → Nat → List Word} {after : Nat → List Word} : ∀ k : Nat,
    (∀ r, 1 ≤ r → r ≤ k → after r = f (after (r - 1)) r) → (List.range' 1 k).foldl f (after 0) = after k
  | 0, _ => rfl
  | k + 1, h => by
    rw [List.range'_1_concat, List.foldl_concat, foldl_range'_eq k fun r h1 hk => h r h1 (by omega), Nat.add_comm 1,
      h (k + 1) (by omega) le_rfl, Nat.add_sub_cancel]

/-- The states after the rounds `k .. 1`, named, are the descending fold. -/
theorem foldl_reverse_range'_eq {f : List Word → Nat → List Word} {after : Nat → List Word} : ∀ k : Nat,
    (∀ r, 1 ≤ r → r ≤ k → after r = f (after (r + 1)) r) →
      (List.range' 1 k).reverse.foldl f (after (k + 1)) = after 1
  | 0, _ => rfl
  | k + 1, h => by
    rw [List.range'_1_concat, List.reverse_concat, List.foldl_cons, Nat.add_comm 1, ← h (k + 1) (by omega) le_rfl,
      foldl_reverse_range'_eq k fun r h1 hk => h r h1 (by omega)]

/-- Rounds taken back in the opposite order. `g` leads from the state at which a round of `f` begins to the one at
which its undoing by `f'` ends. -/
theorem foldl_reverse_undo {f f' : List Word → Nat → List Word} {g : List Word → List Word} {P : List Word → Prop} :
    ∀ (rs : List Nat) (st : List Word), (∀ r ∈ rs, ∀ st, P st → P (f st r) ∧ f' (g (f st r)) r = g st) → P st →
      rs.reverse.foldl f' (g (rs.foldl f st)) = g st
  | [], _, _, _ => rfl
  | r :: rs, st, h, hst => by
    obtain ⟨hkeep, hundo⟩ := h r List.mem_cons_self st hst
    have hrest := foldl_reverse_undo rs (f st r) (fun r' hr' => h r' (List.mem_cons_of_mem _ hr')) hkeep
    rw [List.reverse_cons, List.foldl_concat, List.foldl_cons, hrest, hundo]

/-! ## The block functions are inverse (R193) -/

/-- What every round of `Cipher` begins with (R188). -/
def subShift (st : List Word) : List Word := shiftRows (subBytes st)

/-- What every round of `InvCipher` begins with (R189). -/
def invShiftSub (st : List Word) : List Word := invSubBytes (invShiftRows st)

@[simp] theorem subShift_length (st : List Word) : (subShift st).length = st.length := by simp [subShift]

@[simp] theorem invShiftSub_length (st : List Word) : (invShiftSub st).length = st.length := by simp [invShiftSub]

theorem invShiftSub_subShift {st : List Word} (hst : WidthOk st.length) : invShiftSub (subShift st) = st := by
  rw [invShiftSub, subShift, invShiftRows_shiftRows (by simpa using hst), invSubBytes_subBytes]

theorem subShift_invShiftSub {st : List Word} (hst : WidthOk st.length) : subShift (invShiftSub st) = st := by
  rw [invShiftSub, subShift, subBytes_invSubBytes, shiftRows_invShiftRows hst]

theorem cipher_eq (w : List Word) (nb nr : Nat) (block : List Byte) : cipher w nb nr block =
    storeState (addRoundKey w nb nr (subShift
      ((innerRounds nr).foldl (cipherRound w nb) (addRoundKey w nb 0 (loadState block))))) := rfl

theorem invCipher_eq (w : List Word) (nb nr : Nat) (block : List Byte) : invCipher w nb nr block =
    storeState (addRoundKey w nb 0 (invShiftSub
      ((innerRounds nr).reverse.foldl (invCipherRound w nb) (addRoundKey w nb nr (loadState block))))) := rfl

@[simp] theorem loadState_storeState (st : List Word) : loadState (storeState st) = st := bytesToWords_wordsToBytes st

theorem storeState_loadState {b : List Byte} {nb : Nat} (h : b.length = 4 * nb) : storeState (loadState b) = b :=
  wordsToBytes_bytesToWords h

theorem loadState_length {b : List Byte} {nb : Nat} (h : b.length = 4 * nb) : (loadState b).length = nb :=
  bytesToWords_length_of_words h

section Inverse

variable {w : List Word} {nb nr : Nat} (hnb : WidthOk nb) (hw : w.length = nb * (nr + 1))
include hnb hw

/-- A round of `Cipher`, taken back by the round of `InvCipher` with the same subkey. -/
theorem invCipherRound_cipherRound : ∀ r ∈ innerRounds nr, ∀ st : List Word, st.length = nb →
    (cipherRound w nb st r).length = nb ∧
      invCipherRound w nb (subShift (cipherRound w nb st r)) r = subShift st := by
  intro r hr st hst
  have hkey := subkeys_fit hw (mem_innerRounds.1 hr).2.le
  have hmixed : (mixColumns (subShift st)).length = nb := by simpa using hst
  have hlen : (cipherRound w nb st r).length = nb := addRoundKey_length hkey hmixed
  refine ⟨hlen, ?_⟩
  calc invCipherRound w nb (subShift (cipherRound w nb st r)) r
    _ = invMixColumns (addRoundKey w nb r (invShiftSub (subShift (cipherRound w nb st r)))) := rfl
    _ = invMixColumns (addRoundKey w nb r (cipherRound w nb st r)) := by rw [invShiftSub_subShift (hlen.symm ▸ hnb)]
    _ = invMixColumns (mixColumns (subShift st)) := congrArg invMixColumns (addRoundKey_addRoundKey hkey hmixed)
    _ = subShift st := invMixColumns_mixColumns _

/-- A round of `InvCipher`, taken back by the round of `Cipher` with the same subkey. -/
theorem cipherRound_invCipherRound : ∀ r ∈ innerRounds nr, ∀ st : List Word, st.length = nb →
    (invCipherRound w nb st r).length = nb ∧
      cipherRound w nb (invShiftSub (invCipherRound w nb st r)) r = invShiftSub st := by
  intro r hr st hst
  have hkey := subkeys_fit hw (mem_innerRounds.1 hr).2.le
  have hhalf : (invShiftSub st).length = nb := by simpa using hst
  have hlen : (invCipherRound w nb st r).length = nb :=
    (invMixColumns_length _).trans (addRoundKey_length hkey hhalf)
  refine ⟨hlen, ?_⟩
  calc cipherRound w nb (invShiftSub (invCipherRound w nb st r)) r
    _ = addRoundKey w nb r (mixColumns (subShift (invShiftSub (invCipherRound w nb st r)))) := rfl
    _ = addRoundKey w nb r (mixColumns (invCipherRound w nb st r)) := by rw [subShift_invShiftSub (hlen.symm ▸ hnb)]
    _ = addRoundKey w nb r (addRoundKey w nb r (invShiftSub st)) :=
      congrArg (addRoundKey w nb r) (mixColumns_invMixColumns _)
    _ = invShiftSub st := addRoundKey_addRoundKey hkey hhalf

variable {block : List Byte} (hblock : block.length = 4 * nb)
include hblock

theorem invCipher_cipher : invCipher w nb nr (cipher w nb nr block) = block := by
  have hfirst := subkeys_fit hw (Nat.zero_le nr)
  have hload := loadState_length hblock
  have hst := addRoundKey_length hfirst hload
  have hround := invCipherRound_cipherRound hnb hw
  have hrounds := foldl_length (innerRounds nr) _ (fun r hr st hst => (hround r hr st hst).1) hst
  rw [cipher_eq, invCipher_eq, loadState_storeState,
    addRoundKey_addRoundKey (subkeys_fit hw le_rfl) (by simpa using hrounds),
    foldl_reverse_undo (innerRounds nr) _ hround hst, invShiftSub_subShift (hst.symm ▸ hnb),
    addRoundKey_addRoundKey hfirst hload, storeState_loadState hblock]

theorem cipher_invCipher : cipher w nb nr (invCipher w nb nr block) = block := by
  have hlast := subkeys_fit hw (le_refl nr)
  have hload := loadState_length hblock
  have hst := addRoundKey_length hlast hload
  have hround := fun r (hr : r ∈ (innerRounds nr).reverse) =>
    cipherRound_invCipherRound hnb hw r (List.mem_reverse.1 hr)
  have hrounds := foldl_length (innerRounds nr).reverse _ (fun r hr st hst => (hround r hr st hst).1) hst
  have hundo := foldl_reverse_undo (innerRounds nr).reverse _ hround hst
  rw [List.reverse_reverse] at hundo
  rw [cipher_eq, invCipher_eq, loadState_storeState,
    addRoundKey_addRoundKey (subkeys_fit hw (Nat.zero_le nr)) (by simpa using hrounds), hundo,
    subShift_invShiftSub (hst.symm ▸ hnb), addRoundKey_addRoundKey hlast hload, storeState_loadState hblock]

end Inverse

/-! ## Known answers -/

/-- The rows of section 1.4 are the size pairs of R151. -/
theorem blockVectors_sizes : ∀ v ∈ blockVectors, SizeOk v.keyLength ∧ SizeOk v.blockSize ∧
    v.rounds = max (v.keyLength / 4) (v.blockSize / 4) + 6 := by decide

theorem blockVectors_cipher : ∀ v ∈ blockVectors,
    cipher (keyExpansion v.key (v.blockSize / 4)) (v.blockSize / 4) v.rounds v.plaintext =
      hexBytes v.blockSize v.ciphertext := by decide +kernel

theorem zeroBlock_cipher : cipher (keyExpansion (List.replicate 16 0) 4) 4 10 (List.replicate 16 0) =
    hexBytes 16 0x66e94bd4ef8a2c3b884cfa59ca342b2e := by decide +kernel

/-- Backwards a vector needs no second evaluation. -/
theorem blockVectors_invCipher {v : BlockVector} (hv : v ∈ blockVectors) :
    invCipher (keyExpansion v.key (v.blockSize / 4)) (v.blockSize / 4) v.rounds (hexBytes v.blockSize v.ciphertext) =
      v.plaintext := by
  obtain ⟨hkl, hbs, hrounds⟩ := blockVectors_sizes v hv
  have hkey : v.key.length = 4 * (v.keyLength / 4) := by
    simp only [BlockVector.key, List.length_map, List.length_range]
    omega
  have hblock : v.plaintext.length = 4 * (v.blockSize / 4) := by
    simp only [BlockVector.plaintext, List.length_map, List.length_range]
    omega
  have hw : (keyExpansion v.key (v.blockSize / 4)).length = v.blockSize / 4 * (v.rounds + 1) := by
    rw [keyExpansion_length_of_words hkey (by omega), hrounds, scheduleLength]
  rw [← blockVectors_cipher v hv, invCipher_cipher (by omega) hw hblock]

/-! ## The block commands (R190, R191) -/

/-- What the two block commands share: both checks pass, and `DIN` is the block. -/
theorem blockCommand_of_din {s : State} (f : List Byte → List Byte) (hk : s.keyInit = true)
    (hdin : s.cur.din.length = s.bs) : withKey s (withDin s s.bs (succeed 0 (f (memRead s.cur.din 0 s.bs)) s)) =
      .next (s.respond (okResponse 0 (f s.cur.din))) := by
  rw [withKey_of_keyed hk, withDin_of_length hdin, memRead_whole hdin, succeed]

theorem execEncryptBlock_of_din {s : State} (hk : s.keyInit = true) (hdin : s.cur.din.length = s.bs) :
    execEncryptBlock s = .next (s.respond (okResponse 0 (s.cipher s.cur.din))) :=
  blockCommand_of_din s.cipher hk hdin

theorem execDecryptBlock_of_din {s : State} (hk : s.keyInit = true) (hdin : s.cur.din.length = s.bs) :
    execDecryptBlock s = .next (s.respond (okResponse 0 (s.invCipher s.cur.din))) :=
  blockCommand_of_din s.invCipher hk hdin

/-- A session has a width of R180. -/
theorem State.InSession.widthOk {s : State} (h : s.InSession) : WidthOk s.nb := by
  obtain ⟨-, hbs, -⟩ := h
  simp only [State.nb, State.bs]
  omega

section Session

variable {s : State} (h : s.InSession) {b : List Byte} (hb : b.length = s.bs)
include h hb

/-- In a session `InvCipher` undoes `Cipher` (R193). -/
theorem State.InSession.invCipher_cipher : s.invCipher (s.cipher b) = b :=
  Machine.invCipher_cipher h.widthOk h.w_length (h.bs_eq ▸ hb)

/-- In a session `Cipher` undoes `InvCipher` (R193). -/
theorem State.InSession.cipher_invCipher : s.cipher (s.invCipher b) = b :=
  Machine.cipher_invCipher h.widthOk h.w_length (h.bs_eq ▸ hb)

end Session

section Step

variable {s : State} {b answer : List Byte} {rest : List HostAction} (hk : s.keyInit = true) (hb : b.length = s.bs)
include hk hb

theorem step_callEncryptBlock (hanswer : s.cipher b = answer) (hin : s.inputs = .command (callEncryptBlock b) :: rest) :
    step s = .next ((s.accept (callEncryptBlock b) rest).respond (okResponse 0 answer)) := by
  have hstep := Proofs.stepRunsTheDecodedCommand s _ rest .encryptBlock hin (decode_encode rfl)
  rw [hstep, ← hanswer]
  exact execEncryptBlock_of_din (s := s.accept (callEncryptBlock b) rest) hk hb

theorem step_callDecryptBlock (hanswer : s.invCipher b = answer)
    (hin : s.inputs = .command (callDecryptBlock b) :: rest) :
    step s = .next ((s.accept (callDecryptBlock b) rest).respond (okResponse 0 answer)) := by
  have hstep := Proofs.stepRunsTheDecodedCommand s _ rest .decryptBlock hin (decode_encode rfl)
  rw [hstep, ← hanswer]
  exact execDecryptBlock_of_din (s := s.accept (callDecryptBlock b) rest) hk hb

end Step

/-- Two commands of which each does nothing but respond. -/
theorem run_two_answers {s : State} {tr tr' : Transaction} {r r' : Response}
    (h : step { s with inputs := [.command tr, .command tr'] } = .next ((s.accept tr [.command tr']).respond r))
    (h' : step ((s.accept tr [.command tr']).respond r) =
      .next ((((s.accept tr [.command tr']).respond r).accept tr' []).respond r')) :
    Sys2Proof.core.run 2 { s with inputs := [.command tr, .command tr'] } =
      .next { s with cur := tr', inputs := [], responses := s.responses ++ [r, r'] } := by
  rw [List.append_cons]
  exact (run_succ_of_step h 1).trans (run_succ_of_step h' 0)

/-! ## The commands without a chain (R194, R316) -/

/-- Other values in `CHAIN` and `CHAIN0`. -/
def State.setChains (s : State) (c c0 : List Byte) : State := { s with chain := c, chain0 := c0 }

/-- Besides `MAKEKEY`, only the chained commands and `RESETCHAIN` read or write `CHAIN` or `CHAIN0`: every other
command goes the same way with other values there. -/
theorem exec_setChains_alike {i : Instr} (hmake : i.isMakeKey = false) (hchained : i.chained = false)
    (hreset : i ≠ .resetChain) (s : State) (c c0 : List Byte) :
    Alike (fun t t' => t' = t.setChains c c0) (exec i s) (exec i (s.setChains c c0)) := by
  have hrespond : ∀ r, (s.setChains c c0).respond r = (s.respond r).setChains c c0 := fun _ => rfl
  cases i with
  | encryptBlock | decryptBlock | getKeyLength | getBlockSize | getRounds =>
    exact .withKey rfl hrespond (.withDin rfl _ (.succeed hrespond _ _))
  | encryptEcb | decryptEcb =>
    exact .withKey rfl hrespond (.withWholeBlocks rfl rfl hrespond (.withDin rfl _ (.succeed hrespond _ _)))
  | makeKey z kl bs => cases hmake
  | encryptCbc | encryptCfb | decryptCbc | decryptCfb => cases hchained
  | resetChain => exact absurd rfl hreset

end Sys2Proof.Machine

namespace Sys2Proof.Proofs

open Sys2Proof.Machine

/-- Settles O33: every round of one block function is taken back by the round of the other with the same subkey, and
the last step of one by the first of the other. -/
theorem blockFunctionsAreInverse : Obligations.BlockFunctionsAreInverse :=
  fun _ _ _ _ hnb hw hblock => ⟨invCipher_cipher hnb hw hblock, cipher_invCipher hnb hw hblock⟩

/-- Settles O34: the named states are the folds over the inner rounds; the vectors are evaluated forward, and backward
they follow from the inverse. -/
theorem cipherKnownAnswers : Obligations.CipherKnownAnswers := by
  refine ⟨?_, ?_, zeroBlock_cipher, fun v hv => ⟨blockVectors_cipher v hv, blockVectors_invCipher hv⟩⟩
  · intro w nb nr block after hnr hfirst hround
    have hrounds := foldl_range'_eq (f := cipherRound w nb) (nr - 1) fun r h1 hr => hround r h1 (by omega)
    rw [cipher_eq, ← hfirst, innerRounds, hrounds, subShift]
  · intro w nb nr block after hnr hfirst hround
    have hrounds := foldl_reverse_range'_eq (f := invCipherRound w nb) (nr - 1) fun r h1 hr => hround r h1 (by omega)
    rw [Nat.sub_add_cancel hnr] at hrounds
    rw [invCipher_eq, ← hfirst, innerRounds, hrounds, invShiftSub]

/-- Settles O37: the second command meets the session of the first, and its block function undoes the other. -/
theorem decryptBlockReturnsThePlaintext : Obligations.DecryptBlockReturnsThePlaintext := by
  intro s p ⟨hk, hs⟩ hp
  refine ⟨⟨s.cipher p, run_two_answers (step_callEncryptBlock hk hp rfl rfl) ?_⟩,
    ⟨s.invCipher p, run_two_answers (step_callDecryptBlock hk hp rfl rfl) ?_⟩⟩
  · exact step_callDecryptBlock hk (hs.cipher_length hp) (hs.invCipher_cipher hp) rfl
  · exact step_callEncryptBlock hk (hs.invCipher_length hp) (hs.cipher_invCipher hp) rfl

/-- Settles O53: a command of these does not see the two registers, so with other values there it answers what it
answers, and leaves them. -/
theorem blockEcbAndAccessorsIgnoreTheChain : Obligations.BlockEcbAndAccessorsIgnoreTheChain := by
  intro s t i c c0 hmake hchained hreset h
  obtain ⟨t', h', rfl⟩ := (exec_setChains_alike hmake hchained hreset s c c0).exists_next h
  exact h'

/-- Settles O35: keyed, with one block in `DIN`, both checks pass; unkeyed, the first raises its error. -/
theorem encryptBlockAnswersTheCipher : Obligations.EncryptBlockAnswersTheCipher :=
  fun _ => ⟨execEncryptBlock_of_din, fun hk => exec_of_unkeyed hk rfl⟩

/-- Settles O36: as `ENCRYPTBLOCK`, with the inverse cipher. -/
theorem decryptBlockAnswersTheInverseCipher : Obligations.DecryptBlockAnswersTheInverseCipher :=
  fun _ => ⟨execDecryptBlock_of_din, fun hk => exec_of_unkeyed hk rfl⟩

end Sys2Proof.Proofs
end

section
/-!
PROOFS. The chaining controller family (spec 44_chaining_controller.md), first part: the six multi-block commands as one
command over the blocks of a buffer (R220 to R227), and `RESETCHAIN` (R228).
-/

namespace Sys2Proof.Machine

/-! ## The blocks of a buffer (R56) -/

/-- The whole blocks of a buffer, in order. -/
def blocks (bs : Nat) (buffer : List Byte) : List (List Byte) :=
  (List.range (buffer.length / bs)).map fun k => memRead buffer (k * bs) bs

/-- The input blocks of a command are the blocks of `DIN`. -/
theorem State.inputBlocks_eq_blocks {s : State} (hdin : s.cur.din.length = s.n) :
    s.inputBlocks = blocks s.bs s.cur.din := by
  rw [State.inputBlocks, blocks, hdin]

@[simp] theorem blocks_length (bs : Nat) (buffer : List Byte) : (blocks bs buffer).length = buffer.length / bs := by
  simp [blocks]

theorem blocks_getD {bs k : Nat} {buffer : List Byte} (hk : k < buffer.length / bs) :
    (blocks bs buffer).getD k [] = memRead buffer (k * bs) bs := by
  simp [blocks, List.getD_eq_getElem?_getD, hk]

theorem length_of_mem_blocks {bs : Nat} {buffer b : List Byte} (hb : b ∈ blocks bs buffer) : b.length = bs := by
  obtain ⟨k, hk, rfl⟩ := List.mem_map.1 hb
  have hfit : (k + 1) * bs ≤ buffer.length :=
    (Nat.mul_le_mul_right bs (List.mem_range.1 hk)).trans (Nat.div_mul_le_self _ _)
  rw [Nat.succ_mul] at hfit
  rw [memRead_length]
  omega

/-- The first `m` blocks, read one by one, are the first `m * bs` bytes. -/
theorem flatten_memReads (bs : Nat) (buffer : List Byte) (m : Nat) :
    ((List.range m).map fun k => memRead buffer (k * bs) bs).flatten = buffer.take (m * bs) := by
  induction m with
  | zero => simp
  | succ m ih =>
    rw [List.range_succ, List.map_append, List.flatten_append, ih, Nat.succ_mul, List.take_add]
    simp [memRead]

/-- A buffer of whole blocks is its blocks. -/
theorem flatten_blocks {bs : Nat} {buffer : List Byte} (h : buffer.length % bs = 0) :
    (blocks bs buffer).flatten = buffer := by
  rw [blocks, flatten_memReads, Nat.div_mul_cancel (Nat.dvd_of_mod_eq_zero h), List.take_length]

/-- Blocks of one length are the blocks of their concatenation. -/
theorem blocks_flatten {bs : Nat} {bl : List (List Byte)} (hbs : 0 < bs) (h : ∀ b ∈ bl, b.length = bs) :
    blocks bs bl.flatten = bl := by
  have hlen : bl.flatten.length / bs = bl.length := by rw [flatten_length bl h, Nat.mul_div_cancel _ hbs]
  refine List.ext_getElem (by rw [blocks_length, hlen]) fun k _ hk => ?_
  simpa [blocks] using memRead_flatten bl k h hk

/-- Two buffers of whole blocks, one after the other, are the blocks of the one and then of the other. -/
theorem blocks_append {bs : Nat} {d1 d2 : List Byte} (hbs : 0 < bs) (h1 : d1.length % bs = 0)
    (h2 : d2.length % bs = 0) : blocks bs (d1 ++ d2) = blocks bs d1 ++ blocks bs d2 := by
  have hlen : ∀ b ∈ blocks bs d1 ++ blocks bs d2, b.length = bs := fun b hb =>
    (List.mem_append.1 hb).elim length_of_mem_blocks length_of_mem_blocks
  calc blocks bs (d1 ++ d2)
    _ = blocks bs (blocks bs d1 ++ blocks bs d2).flatten := by
      rw [List.flatten_append, flatten_blocks h1, flatten_blocks h2]
    _ = blocks bs d1 ++ blocks bs d2 := blocks_flatten hbs hlen

/-! ## One block of each command -/

/-- One block of an ECB command (R222, R225) as a step that leaves the Chain Register as it is. -/
def ecbStep (f : List Byte → List Byte) : ChainStep := fun b c => (f b, c)

/-- An ECB loop maps its block function and keeps the Chain Register. -/
theorem chainLoop_ecbStep (f : List Byte → List Byte) (bl : List (List Byte)) (c : List Byte) :
    chainLoop (ecbStep f) bl c = (bl.map f, c) := by
  induction bl with
  | nil => rfl
  | cons b bl ih => rw [chainLoop_cons, ecbStep, ih, List.map_cons]

/-- The step of a multi-block command (R222 to R227); the other commands have no blocks. -/
def State.blockStep (s : State) : Instr → ChainStep
  | .encryptEcb => ecbStep s.cipher
  | .encryptCbc => s.cbcEncryptStep
  | .encryptCfb => s.cfbEncryptStep
  | .decryptEcb => ecbStep s.invCipher
  | .decryptCbc => s.cbcDecryptStep
  | .decryptCfb => s.cfbDecryptStep
  | _ => ecbStep id

theorem runEcb_eq_runChained (f : List Byte → List Byte) (s : State) : runEcb f s = runChained (ecbStep f) s := by
  rw [runEcb, runChained, chainLoop_ecbStep]

/-- Every multi-block command is the loop over its step. -/
theorem exec_of_multiBlock {i : Instr} (hi : i.multiBlock = true) (s : State) :
    exec i s = runChained (s.blockStep i) s := by
  cases i with
  | encryptEcb | decryptEcb => exact runEcb_eq_runChained _ s
  | encryptCbc | encryptCfb | decryptCbc | decryptCfb => rfl
  | _ => cases hi

/-- The Chain Register holds a block (R28). -/
theorem State.InSession.chain_length {s : State} (h : s.InSession) : s.chain.length = s.bs := by
  obtain ⟨-, -, -, -, -, -, hchain⟩ := h
  exact hchain

/-- In a session a block and a chain give a block and a chain (R60). -/
theorem State.InSession.blockStep_length {s : State} (h : s.InSession) (i : Instr) {b c : List Byte}
    (hb : b.length = s.bs) (hc : c.length = s.bs) :
    (s.blockStep i b c).1.length = s.bs ∧ (s.blockStep i b c).2.length = s.bs := by
  cases i with
  | encryptEcb => exact ⟨h.cipher_length hb, hc⟩
  | decryptEcb => exact ⟨h.invCipher_length hb, hc⟩
  | encryptCbc =>
    have hy : (s.cipher (bytesXor b c)).length = s.bs := h.cipher_length (by simp [hb, hc])
    exact ⟨hy, hy⟩
  | encryptCfb =>
    have hy : (bytesXor (s.cipher c) b).length = s.bs := by simp [h.cipher_length hc, hb]
    exact ⟨hy, hy⟩
  | decryptCbc => exact ⟨by simp [State.blockStep, State.cbcDecryptStep, h.invCipher_length hb, hc], hb⟩
  | decryptCfb => exact ⟨by simp [State.blockStep, State.cfbDecryptStep, h.cipher_length hc, hb], hb⟩
  | _ => exact ⟨hb, hc⟩

/-! ## A command over a buffer -/

/-- What a multi-block command makes of a buffer, from the chain `c`: its output and the chain it leaves. -/
def State.runBuffer (s : State) (i : Instr) (buffer c : List Byte) : List Byte × List Byte :=
  ((chainLoop (s.blockStep i) (blocks s.bs buffer) c).1.flatten, (chainLoop (s.blockStep i) (blocks s.bs buffer) c).2)

/-- The state after a successful command with output `r.1` that leaves `r.2` in `CHAIN`. -/
def State.answerBuffer (s : State) (r : List Byte × List Byte) : State :=
  State.respond { s with chain := r.2 } (okResponse 0 r.1)

/-- A multi-block command that passes its checks runs over `DIN` from `CHAIN`. -/
theorem exec_of_passed {i : Instr} (hi : i.multiBlock = true) {s : State} (hk : s.keyInit = true)
    (ha : s.n % s.bs = 0) (hdin : s.cur.din.length = s.n) :
    exec i s = .next (s.answerBuffer (s.runBuffer i s.cur.din s.chain)) := by
  rw [exec_of_multiBlock hi, runChained, withBuffer_of_passed hk ha hdin, State.inputBlocks_eq_blocks hdin]
  rfl

/-- The checks of R220 stand before everything else; what holds of `LEN` and `BLKSIZE` after them holds under any
names. -/
theorem checksFirst_and {i : Instr} {s : State} {answers : Nat → Nat → Prop} (hi : i.multiBlock = true)
    (hmake : i.isMakeKey = false)
    (h : s.Ready → s.n % s.bs = 0 → s.cur.din.length = s.n → answers s.n s.bs) :
    s.ChecksFirst i ∧ ∀ n bs, s.Ready → s.cur.len.toNat = n → s.blksize.toNat = bs → n % bs = 0 →
      s.cur.din.length = n → answers n bs := by
  refine ⟨⟨fun hk => exec_of_unkeyed hk hmake, fun hk ha => exec_of_misaligned hi hk ha⟩, ?_⟩
  rintro _ _ hs rfl rfl
  exact h hs

section Loop

variable {s : State} (h : s.InSession) (i : Instr) (buffer : List Byte) {c : List Byte} (hc : c.length = s.bs)
include h hc

/-- The output blocks and the chain that is left have the block's length (R60). -/
theorem chainLoop_blockStep_length :
    (∀ o ∈ (chainLoop (s.blockStep i) (blocks s.bs buffer) c).1, o.length = s.bs) ∧
      (chainLoop (s.blockStep i) (blocks s.bs buffer) c).2.length = s.bs :=
  chainLoop_preserves (P := fun c => c.length = s.bs) (Q := fun o => o.length = s.bs) _ c
    (fun _ hb _ hc => h.blockStep_length i (length_of_mem_blocks hb) hc) hc

/-- The output is as long as the buffer (R60). -/
theorem runBuffer_length (ha : buffer.length % s.bs = 0) : (s.runBuffer i buffer c).1.length = buffer.length := by
  rw [State.runBuffer, flatten_length _ (chainLoop_blockStep_length h i buffer hc).1, chainLoop_length, blocks_length,
    Nat.div_mul_cancel (Nat.dvd_of_mod_eq_zero ha)]

/-- Output block `k` (R52, R56). -/
theorem runBuffer_memRead {k : Nat} (hk : k < buffer.length / s.bs) :
    memRead (s.runBuffer i buffer c).1 (k * s.bs) s.bs =
      (chainLoop (s.blockStep i) (blocks s.bs buffer) c).1.getD k [] := by
  have hk' : k < (chainLoop (s.blockStep i) (blocks s.bs buffer) c).1.length := by simpa using hk
  rw [List.getD_eq_getElem _ _ hk']
  exact memRead_flatten _ k (chainLoop_blockStep_length h i buffer hc).1 hk'

end Loop

/-! ## The feedback of the chained commands -/

/-- Which block a chained command leaves in `CHAIN`: the input block it consumed (R226, R227) or the output block it
produced (R223, R224). -/
inductive Feedback where
  | consumed
  | produced

/-- The choice between what is read and what is written. -/
def Feedback.pick {α : Type} : Feedback → α → α → α
  | .consumed, input, _ => input
  | .produced, _, output => output

/-- The Chain Register before block `k`: the one the loop began from, then the fed back block before it. -/
def Feedback.before (fb : Feedback) (ins outs : List (List Byte)) (c : List Byte) (k : Nat) : List Byte :=
  if k = 0 then c else (fb.pick ins outs).getD (k - 1) []

/-- Past the first block, the register is that of the remaining blocks from what the first fed back. -/
theorem Feedback.before_cons (fb : Feedback) (b o c : List Byte) (ins outs : List (List Byte)) (k : Nat) :
    fb.before (b :: ins) (o :: outs) c (k + 1) = fb.before ins outs (fb.pick b o) k := by
  cases fb <;> cases k <;> rfl

/-- The loop of a step that feeds back one of its blocks: what each output block is computed from, and what is left in
the Chain Register. -/
theorem chainLoop_of_feedback {f : ChainStep} {fb : Feedback} (hf : ∀ b c, (f b c).2 = fb.pick b (f b c).1) :
    ∀ (ins : List (List Byte)) (c : List Byte),
      (∀ k < ins.length, (chainLoop f ins c).1.getD k [] =
        (f (ins.getD k []) (fb.before ins (chainLoop f ins c).1 c k)).1) ∧
      (chainLoop f ins c).2 = fb.before ins (chainLoop f ins c).1 c ins.length
  | [], c => ⟨fun k hk => absurd hk (Nat.not_lt_zero k), rfl⟩
  | b :: ins, c => by
    obtain ⟨houts, hchain⟩ := chainLoop_of_feedback hf ins (f b c).2
    rw [chainLoop_cons]
    refine ⟨fun k hk => ?_, ?_⟩
    · cases k with
      | zero => rfl
      | succ k =>
        rw [Feedback.before_cons, ← hf, List.getD_cons_succ, List.getD_cons_succ]
        exact houts k (Nat.lt_of_succ_lt_succ hk)
    · rw [List.length_cons, Feedback.before_cons, ← hf]
      exact hchain

/-- The register before block `k` in the bytes of the buffer and of the output. -/
theorem before_blocks {s : State} (h : s.InSession) (i : Instr) (buffer : List Byte) {c : List Byte}
    (hc : c.length = s.bs) (fb : Feedback) {k : Nat} (hk : k ≤ buffer.length / s.bs) :
    fb.before (blocks s.bs buffer) (chainLoop (s.blockStep i) (blocks s.bs buffer) c).1 c k =
      if k = 0 then c else memRead (fb.pick buffer (s.runBuffer i buffer c).1) ((k - 1) * s.bs) s.bs := by
  unfold Feedback.before
  split_ifs with h0
  · rfl
  · cases fb with
    | consumed => exact blocks_getD (by omega)
    | produced => exact (runBuffer_memRead h i buffer hc (by omega)).symm

/-- A chained command in a session, from the blocks of the buffer: R223, R224, R226 and R227 differ in the step and in
the block that is fed back. -/
theorem exec_of_feedback {i : Instr} {fb : Feedback} {s : State} (hi : i.multiBlock = true)
    (hfb : ∀ b c, (s.blockStep i b c).2 = fb.pick b (s.blockStep i b c).1) (hs : s.Ready) (ha : s.n % s.bs = 0)
    (hdin : s.cur.din.length = s.n) :
    ∃ out, exec i s = .next { s with
        chain := if s.n = 0 then s.chain else memRead (fb.pick s.cur.din out) (s.n - s.bs) s.bs
        responses := s.responses ++ [⟨0, 0, out⟩] } ∧
      out.length = s.n ∧
      ∀ k, k < s.n / s.bs → memRead out (k * s.bs) s.bs = (s.blockStep i (memRead s.cur.din (k * s.bs) s.bs)
        (if k = 0 then s.chain else memRead (fb.pick s.cur.din out) ((k - 1) * s.bs) s.bs)).1 := by
  obtain ⟨hk, h⟩ := hs
  have hc := h.chain_length
  obtain ⟨houts, hlast⟩ := chainLoop_of_feedback hfb (blocks s.bs s.cur.din) s.chain
  have hrun := exec_of_passed hi hk ha hdin
  rw [← hdin] at ha ⊢
  refine ⟨(s.runBuffer i s.cur.din s.chain).1, ?_, runBuffer_length h i _ hc ha, fun k hkn => ?_⟩
  · have hzero : s.cur.din.length / s.bs = 0 ↔ s.cur.din.length = 0 := by
      rw [Nat.div_eq_zero_iff_lt h.bs_pos]
      exact ⟨fun hlt => (Nat.mod_eq_of_lt hlt).symm.trans ha, fun h0 => h0 ▸ h.bs_pos⟩
    have hend : (s.cur.din.length / s.bs - 1) * s.bs = s.cur.din.length - s.bs := by
      rw [Nat.sub_mul, Nat.div_mul_cancel (Nat.dvd_of_mod_eq_zero ha), Nat.one_mul]
    have hchain : (s.runBuffer i s.cur.din s.chain).2 = if s.cur.din.length = 0 then s.chain else
        memRead (fb.pick s.cur.din (s.runBuffer i s.cur.din s.chain).1) (s.cur.din.length - s.bs) s.bs := by
      rw [← hend, ← if_congr hzero rfl rfl, ← before_blocks h i s.cur.din hc fb le_rfl, ← blocks_length]
      exact hlast
    rw [hrun, ← hchain]
    rfl
  · rw [runBuffer_memRead h i _ hc hkn, houts k (by simpa using hkn), blocks_getD hkn, before_blocks h i _ hc fb hkn.le]

/-- An ECB command in a session: every block on its own. -/
theorem exec_of_ecb {i : Instr} {f : List Byte → List Byte} {s : State} (hi : i.multiBlock = true)
    (hf : s.blockStep i = ecbStep f) (hs : s.Ready) (ha : s.n % s.bs = 0) (hdin : s.cur.din.length = s.n) :
    ∃ out, exec i s = .next { s with responses := s.responses ++ [⟨0, 0, out⟩] } ∧ out.length = s.n ∧
      ∀ k, k < s.n / s.bs → memRead out (k * s.bs) s.bs = f (memRead s.cur.din (k * s.bs) s.bs) := by
  obtain ⟨hk, h⟩ := hs
  have hc := h.chain_length
  have hchain : (s.runBuffer i s.cur.din s.chain).2 = s.chain := by rw [State.runBuffer, hf, chainLoop_ecbStep]
  have hrun := exec_of_passed hi hk ha hdin
  rw [← hdin] at ha ⊢
  refine ⟨(s.runBuffer i s.cur.din s.chain).1, ?_, runBuffer_length h i _ hc ha, fun k hkn => ?_⟩
  · rw [hrun, State.answerBuffer, hchain]
    rfl
  · have hkb : k < (blocks s.bs s.cur.din).length := by simpa using hkn
    rw [runBuffer_memRead h i _ hc hkn, hf, chainLoop_ecbStep, ← blocks_getD hkn, List.getD_eq_getElem _ _ hkb,
      List.getD_eq_getElem _ _ (by simpa using hkn), List.getElem_map]

/-- `RESETCHAIN` on a keyed engine with an empty `DIN` (R228). -/
theorem execResetChain_of_keyed {s : State} (hk : s.keyInit = true) (hdin : s.cur.din = []) :
    execResetChain s = .next (s.answerBuffer ([], s.chain0)) := by
  rw [execResetChain, withKey_of_keyed hk, withDin_of_length (by rw [hdin]; rfl)]
  rfl

end Sys2Proof.Machine

namespace Sys2Proof.Proofs

open Sys2Proof.Machine

/-- Settles O38: the checks, then the ECB loop with the cipher. -/
theorem encryptEcbEnciphersEachBlock : Obligations.EncryptEcbEnciphersEachBlock :=
  fun _ => checksFirst_and rfl rfl (exec_of_ecb rfl rfl)

/-- Settles O39: as `ENCRYPT.ECB`, with the inverse cipher. -/
theorem decryptEcbDeciphersEachBlock : Obligations.DecryptEcbDeciphersEachBlock :=
  fun _ => checksFirst_and rfl rfl (exec_of_ecb rfl rfl)

/-- Settles O40: the chained loop that feeds back the block it produced. -/
theorem encryptCbcChainsCiphertextBlocks : Obligations.EncryptCbcChainsCiphertextBlocks :=
  fun _ => checksFirst_and rfl rfl (exec_of_feedback (fb := .produced) rfl (fun _ _ => rfl))

/-- Settles O41: as `ENCRYPT.CBC`, with the step of CFB. -/
theorem encryptCfbFeedsBackCiphertextBlocks : Obligations.EncryptCfbFeedsBackCiphertextBlocks :=
  fun _ => checksFirst_and rfl rfl (exec_of_feedback (fb := .produced) rfl (fun _ _ => rfl))

/-- Settles O42: the chained loop that feeds back the block it consumed, not the plaintext it produced. -/
theorem decryptCbcChainsConsumedBlocks : Obligations.DecryptCbcChainsConsumedBlocks :=
  fun _ => checksFirst_and rfl rfl (exec_of_feedback (fb := .consumed) rfl (fun _ _ => rfl))

/-- Settles O43: as `DECRYPT.CBC`, with the step of CFB, which enciphers the chain. -/
theorem decryptCfbUsesTheForwardCipher : Obligations.DecryptCfbUsesTheForwardCipher :=
  fun _ => checksFirst_and rfl rfl (exec_of_feedback (fb := .consumed) rfl (fun _ _ => rfl))

/-- Settles O44: the loop over no block has no output and leaves `CHAIN`. -/
theorem emptyBufferIsAccepted : Obligations.EmptyBufferIsAccepted := by
  intro s i hk hi hlen hdin
  have hn : s.n = 0 := by rw [State.n, hlen]; rfl
  have hzero : s.runBuffer i [] s.chain = ([], s.chain) := by simp [State.runBuffer, blocks]
  rw [exec_of_passed hi hk (by rw [hn, Nat.zero_mod]) (by rw [hdin, hn]; rfl), hdin, hzero]
  rfl

/-- Settles O45: keyed, with an empty `DIN`, both checks pass; unkeyed, the first raises its error. -/
theorem resetChainRestoresTheChainInit : Obligations.ResetChainRestoresTheChainInit :=
  fun _ => ⟨execResetChain_of_keyed, fun hk => exec_of_unkeyed hk rfl⟩

end Sys2Proof.Proofs
end

section
/-!
PROOFS. The chaining controller family (spec 44_chaining_controller.md), second part: buffers across commands, that is
splitting (R229), the round trip (R230) and the isolation of streams (R231).
-/

namespace Sys2Proof.Machine

/-! ## Two runs over buffers -/

theorem bytesXor_comm (a b : List Byte) : bytesXor a b = bytesXor b a :=
  List.zipWith_comm_of_comm BitVec.xor_comm

/-- Adding the same bytes twice changes nothing (R10). -/
theorem bytesXor_cancel_right : ∀ {a b : List Byte}, a.length = b.length → bytesXor (bytesXor a b) b = a
  | [], [], _ => rfl
  | x :: a, y :: b, h => by
    have ih : bytesXor (bytesXor a b) b = a := bytesXor_cancel_right (by simpa using h)
    simpa [bytesXor, BitVec.xor_assoc] using ih

/-- A run over two buffers of whole blocks is the run over the first and then, from the chain it left, the run over
the second (R229). -/
theorem runBuffer_append {s : State} (h : s.InSession) (i : Instr) {d1 d2 : List Byte} (h1 : d1.length % s.bs = 0)
    (h2 : d2.length % s.bs = 0) (c : List Byte) : s.runBuffer i (d1 ++ d2) c =
      ((s.runBuffer i d1 c).1 ++ (s.runBuffer i d2 (s.runBuffer i d1 c).2).1,
        (s.runBuffer i d2 (s.runBuffer i d1 c).2).2) := by
  simp only [State.runBuffer, blocks_append h.bs_pos h1 h2, chainLoop_append, List.flatten_append]

/-- In a session a block decrypted from the chain it was encrypted from comes back, and the chain is left as the
encryption left it. -/
theorem State.InSession.blockStep_undo {s : State} (h : s.InSession) (m : Mode) {b c : List Byte}
    (hb : b.length = s.bs) (hc : c.length = s.bs) :
    s.blockStep (decryptInstr m) (s.blockStep (encryptInstr m) b c).1 c =
      (b, (s.blockStep (encryptInstr m) b c).2) := by
  cases m with
  | ecb => exact congrArg (·, c) (h.invCipher_cipher hb)
  | cbc =>
    have hundo : bytesXor (s.invCipher (s.cipher (bytesXor b c))) c = b := by
      rw [h.invCipher_cipher (by simp [hb, hc]), bytesXor_cancel_right (hb.trans hc.symm)]
    exact congrArg (·, s.cipher (bytesXor b c)) hundo
  | cfb =>
    have hundo : bytesXor (s.cipher c) (bytesXor (s.cipher c) b) = b := by
      rw [bytesXor_comm, bytesXor_comm (s.cipher c), bytesXor_cancel_right (hb.trans (h.cipher_length hc).symm)]
    exact congrArg (·, bytesXor (s.cipher c) b) hundo

/-- Block by block, the decryption meets the chain that the encryption met. -/
theorem chainLoop_undo {s : State} (h : s.InSession) (m : Mode) :
    ∀ (bl : List (List Byte)) (c : List Byte), (∀ b ∈ bl, b.length = s.bs) → c.length = s.bs →
      chainLoop (s.blockStep (decryptInstr m)) (chainLoop (s.blockStep (encryptInstr m)) bl c).1 c =
        (bl, (chainLoop (s.blockStep (encryptInstr m)) bl c).2)
  | [], _, _, _ => rfl
  | b :: bl, c, hbl, hc => by
    have hb := hbl b List.mem_cons_self
    have ih := chainLoop_undo h m bl _ (fun b' hb' => hbl b' (List.mem_cons_of_mem b hb'))
      (h.blockStep_length (encryptInstr m) hb hc).2
    rw [chainLoop_cons, chainLoop_cons, h.blockStep_undo m hb hc, ih]

/-- Decryption returns the buffer from the chain that the encryption started from (R230). -/
theorem runBuffer_undo {s : State} (h : s.InSession) (m : Mode) {buffer c : List Byte} (hc : c.length = s.bs)
    (ha : buffer.length % s.bs = 0) :
    s.runBuffer (decryptInstr m) (s.runBuffer (encryptInstr m) buffer c).1 c =
      (buffer, (s.runBuffer (encryptInstr m) buffer c).2) := by
  have hblocks : blocks s.bs (s.runBuffer (encryptInstr m) buffer c).1 = _ :=
    blocks_flatten h.bs_pos (chainLoop_blockStep_length h (encryptInstr m) buffer hc).1
  rw [State.runBuffer, hblocks, chainLoop_undo h m _ c (fun _ hb => length_of_mem_blocks hb) hc, flatten_blocks ha]
  rfl

/-- The output of an ECB decryption does not depend on the chain. -/
theorem runBuffer_decryptEcb (s : State) (buffer c c' : List Byte) :
    (s.runBuffer .decryptEcb buffer c).1 = (s.runBuffer .decryptEcb buffer c').1 := by
  simp only [State.runBuffer, State.blockStep, chainLoop_ecbStep]

/-! ## Buffers as commands -/

/-- A multi-block command as the host presents it (R93). -/
def bufferCommand (i : Instr) (buffer : List Byte) : Transaction :=
  ⟨encode i, BitVec.ofNat 32 buffer.length, buffer⟩

/-- Only `MAKEKEY` has operands that its word may not hold (R85). -/
theorem Instr.wf_of_not_makeKey {i : Instr} (hi : i.isMakeKey = false) : i.wf = true := by
  cases i with
  | makeKey z kl bs => cases hi
  | _ => rfl

theorem Instr.not_makeKey_of_multiBlock {i : Instr} (hi : i.multiBlock = true) : i.isMakeKey = false := by
  cases i with
  | makeKey z kl bs => cases hi
  | _ => rfl

theorem Instr.multiBlock_of_chained {i : Instr} (hi : i.chained = true) : i.multiBlock = true := by
  cases i with
  | encryptCbc | encryptCfb | decryptCbc | decryptCfb => rfl
  | _ => cases hi

theorem multiBlock_encryptInstr (m : Mode) : (encryptInstr m).multiBlock = true := by cases m <;> rfl

theorem multiBlock_decryptInstr (m : Mode) : (decryptInstr m).multiBlock = true := by cases m <;> rfl

/-- The host presents these actions. -/
def State.present (s : State) (actions : List HostAction) : State := { s with inputs := actions }

/-- The state after the transaction `tr` was answered with the output `r.1`, leaving `r.2` in `CHAIN`. -/
def State.answered (s : State) (tr : Transaction) (r : List Byte × List Byte) : State :=
  (s.accept tr []).answerBuffer r

@[simp] theorem State.present_responses (s : State) (actions : List HostAction) :
    (s.present actions).responses = s.responses := rfl

@[simp] theorem State.answered_responses (s : State) (tr : Transaction) (r : List Byte × List Byte) :
    (s.answered tr r).responses = s.responses ++ [okResponse 0 r.1] := rfl

@[simp] theorem State.answered_chain (s : State) (tr : Transaction) (r : List Byte × List Byte) :
    (s.answered tr r).chain = r.2 := rfl

/-- A run over a buffer reads no register that an answer changes. -/
@[simp] theorem State.answered_runBuffer (s : State) (tr : Transaction) (r : List Byte × List Byte) :
    (s.answered tr r).runBuffer = s.runBuffer := rfl

/-- The step of a multi-block command on a buffer of whole blocks. -/
theorem step_bufferCommand (s : State) {i : Instr} {buffer : List Byte} (rest : List HostAction)
    (hi : i.multiBlock = true) (hk : s.keyInit = true) (ha : buffer.length % s.bs = 0)
    (hlen : buffer.length < 2 ^ 32) : step (s.present (.command (bufferCommand i buffer) :: rest)) =
      .next ((s.answered (bufferCommand i buffer) (s.runBuffer i buffer s.chain)).present rest) := by
  have hn : ((s.present []).accept (bufferCommand i buffer) rest).n = buffer.length := by
    rw [State.n, State.accept_cur, bufferCommand, BitVec.toNat_ofNat, Nat.mod_eq_of_lt hlen]
  have hdecode := decode_encode (Instr.wf_of_not_makeKey (Instr.not_makeKey_of_multiBlock hi))
  rw [Proofs.stepRunsTheDecodedCommand (s.present (.command (bufferCommand i buffer) :: rest)) (bufferCommand i buffer)
    rest i rfl hdecode]
  exact exec_of_passed (s := (s.present []).accept (bufferCommand i buffer) rest) hi hk (hn.symm ▸ ha) hn.symm

/-- The step of `RESETCHAIN` on a keyed engine. -/
theorem step_callResetChain (s : State) (rest : List HostAction) (hk : s.keyInit = true) :
    step (s.present (.command callResetChain :: rest)) =
      .next ((s.answered callResetChain ([], s.chain0)).present rest) := by
  rw [Proofs.stepRunsTheDecodedCommand (s.present (.command callResetChain :: rest)) callResetChain rest .resetChain rfl
    (decode_encode rfl)]
  exact execResetChain_of_keyed (s := (s.present []).accept callResetChain rest) hk rfl

/-! ## Commands of one session (R162) -/

/-- `t` is `s` but for the Chain Register and the port: the other registers are those of one session. -/
def State.SameSession (s t : State) : Prop :=
  ∃ c tr actions past, t = { s with chain := c, cur := tr, inputs := actions, responses := past }

theorem State.SameSession.trans {s t u : State} (hst : s.SameSession t) (htu : t.SameSession u) :
    s.SameSession u := by
  obtain ⟨_, _, _, _, rfl⟩ := hst
  obtain ⟨c, tr, actions, past, rfl⟩ := htu
  exact ⟨c, tr, actions, past, rfl⟩

theorem State.SameSession.keyInit {s t : State} (h : s.SameSession t) : t.keyInit = s.keyInit := by
  obtain ⟨_, _, _, _, rfl⟩ := h
  rfl

/-- After `RESETCHAIN` a session whose chain was the chain-init reads, for the next transaction, as at that time. -/
theorem State.SameSession.readsAs_of_reset {s t : State} (h : s.SameSession t) (hchain : s.chain = s.chain0)
    (reset tr : Transaction) : State.ReadsAs (((t.answered reset ([], t.chain0)).present [.command tr]).accept tr [])
      ((s.present [.command tr]).accept tr []) := by
  obtain ⟨_, _, _, _, rfl⟩ := h
  exact ⟨rfl, rfl, rfl, rfl, rfl, rfl, hchain.symm, rfl⟩

/-- Every command but `MAKEKEY` stays in the session (R35). -/
theorem exec_sameSession {i : Instr} {s t : State} (hi : i.isMakeKey = false) (h : exec i s = .next t) :
    s.SameSession t := by
  rcases exec_eq_next h with ⟨e, rfl⟩ | ⟨z, kl, bs, rfl, -⟩ | ⟨v, d, -, rfl⟩ | ⟨f, d, -, -, rfl⟩ | ⟨-, -, rfl⟩
  · exact ⟨_, _, _, _, rfl⟩
  · cases hi
  all_goals exact ⟨_, _, _, _, rfl⟩

/-- What an action that stays in the session can be. -/
theorem HostAction.staysInSession_eq {x : HostAction} (hx : x.staysInSession = true) :
    ∃ tr, x = .command tr ∧ ∀ i, decode tr.cmd = .legal i → i.isMakeKey = false := by
  cases x with
  | reset => cases hx
  | command tr =>
    refine ⟨tr, rfl, fun i hi => ?_⟩
    simpa [HostAction.staysInSession, hi] using hx

/-- A step for such an action stays in the session, and leaves the host's later actions. -/
theorem step_staysInSession {x : HostAction} {rest : List HostAction} {s t : State} (hx : x.staysInSession = true)
    (hin : s.inputs = x :: rest) (h : step s = .next t) : s.SameSession t ∧ t.inputs = rest := by
  obtain ⟨tr, rfl, hmake⟩ := HostAction.staysInSession_eq hx
  have haccept : s.SameSession (s.accept tr rest) := ⟨_, _, _, _, rfl⟩
  rw [step_of_command hin] at h
  rcases perform_eq_next h with ⟨i, hi, h⟩ | ⟨why, -, rfl⟩
  · exact ⟨haccept.trans (exec_sameSession (hmake i hi) h), (exec_response h).1⟩
  · exact ⟨haccept.trans ⟨_, _, _, _, rfl⟩, rfl⟩

/-- A run that ends in a next state begins with a step that does. -/
theorem run_succ_eq_next {s t : State} {k : Nat} (h : Sys2Proof.core.run (k + 1) s = .next t) :
    ∃ u, step s = .next u ∧ Sys2Proof.core.run k u = .next t := by
  cases hs : step s with
  | next u => exact ⟨u, rfl, run_succ_of_step hs k ▸ h⟩
  | fault f => exact absurd hs (not_fault _ f)
  | refused why => rw [run_succ_of_refused hs] at h; cases h

/-- A run over such actions stays in the session. -/
theorem run_staysInSession : ∀ (actions : List HostAction) (s t : State),
    (∀ x ∈ actions, x.staysInSession = true) → s.inputs = actions →
      Sys2Proof.core.run actions.length s = .next t → s.SameSession t
  | [], s, t, _, _, h => by
    obtain rfl : s = t := Host.Outcome.next.inj h
    exact ⟨_, _, _, _, rfl⟩
  | x :: rest, s, t, hstay, hin, h => by
    obtain ⟨u, hstep, hrun⟩ := run_succ_eq_next h
    obtain ⟨hsu, huin⟩ := step_staysInSession (hstay x List.mem_cons_self) hin hstep
    exact hsu.trans (run_staysInSession rest u t (fun y hy => hstay y (List.mem_cons_of_mem x hy)) huin hrun)

/-! ## One command after different responses -/

/-- Both states were last answered the same and hold the same chain. -/
def State.SameLastAnswer (s t : State) : Prop :=
  t.responses.getLast? = s.responses.getLast? ∧ t.chain = s.chain

theorem State.sameLastAnswer_respond {s t : State} (h : t.chain = s.chain) (r : Response) :
    State.SameLastAnswer (s.respond r) (t.respond r) := ⟨by simp, h⟩

/-- One transaction performed in two states that agree in what commands read. -/
theorem perform_sameLastAnswer {s t : State} (h : t.ReadsAs s) : Alike State.SameLastAnswer s.perform t.perform := by
  have hrespond := State.sameLastAnswer_respond h.chain
  refine perform_alike h.cur hrespond fun i => exec_alike hrespond h ?_ ?_ i
  · exact fun c r => State.sameLastAnswer_respond (s := { s with chain := c }) (t := { t with chain := c }) rfl r
  · exact fun kl bs key ci r => State.sameLastAnswer_respond (s := s.establish kl bs key ci)
      (t := t.establish kl bs key ci) rfl r

end Sys2Proof.Machine

namespace Sys2Proof.Proofs

open Sys2Proof.Machine

/-- Settles O46: `RESETCHAIN` puts back the chain that the encryption started from. -/
theorem chainedRoundTripWithReset : Obligations.ChainedRoundTripWithReset := by
  intro s m p ⟨hk, h⟩ hchain ha hlen
  have hclen := runBuffer_length h (encryptInstr m) p h.chain_length ha
  have hundo := runBuffer_undo h m h.chain_length ha
  generalize hc : (s.runBuffer (encryptInstr m) p s.chain).1 = c at hclen hundo
  have hback : (s.runBuffer (decryptInstr m) c s.chain0).1 = p := by rw [← hchain, hundo]
  have hencrypt := step_bufferCommand s [.command callResetChain, .command (callDecrypt c m)] (multiBlock_encryptInstr m)
    hk ha hlen
  have hreset := step_callResetChain (s.answered (callEncrypt p m) (s.runBuffer (encryptInstr m) p s.chain))
    [.command (callDecrypt c m)] hk
  have hdecrypt := step_bufferCommand (State.answered (s.answered (callEncrypt p m)
    (s.runBuffer (encryptInstr m) p s.chain)) callResetChain ([], s.chain0)) []
    (multiBlock_decryptInstr m) hk (hclen.symm ▸ ha) (hclen.symm ▸ hlen)
  refine ⟨c, _, hclen, (run_succ_of_step hencrypt 2).trans ((run_succ_of_step hreset 1).trans
    (run_succ_of_step hdecrypt 0)), ?_⟩
  simp [hc, hback, okResponse, Status.code]

/-- Settles O47: the decryption undoes the encryption from one chain, and that of ECB does from any, since its output
does not depend on the chain. -/
theorem decryptionFromTheSameChainReturnsTheBuffer : Obligations.DecryptionFromTheSameChainReturnsTheBuffer := by
  intro s m p other ⟨hk, h⟩ ha hlen hother
  have hclen := runBuffer_length h (encryptInstr m) p h.chain_length ha
  have hundo := runBuffer_undo h m h.chain_length ha
  refine ⟨(s.runBuffer (encryptInstr m) p s.chain).1, _, _,
    step_bufferCommand s [] (multiBlock_encryptInstr m) hk ha hlen, rfl,
    step_bufferCommand { s with chain := other } [] (multiBlock_decryptInstr m) hk (hclen.symm ▸ ha)
      (hclen.symm ▸ hlen), ?_, fun hm => ?_⟩
  · have hout : (s.runBuffer (decryptInstr m) (s.runBuffer (encryptInstr m) p s.chain).1 other).1 = p := by
      cases m with
      | ecb => exact (runBuffer_decryptEcb s _ other s.chain).trans (congrArg Prod.fst hundo)
      | cbc | cfb => rw [hother nofun, hundo]
    exact congrArg (fun out => s.responses ++ [⟨0, 0, out⟩]) hout
  · obtain rfl := hother hm
    exact (congrArg Prod.snd hundo :)

/-- Settles O48: the second part meets the chain that the first left. -/
theorem splittingABufferChangesNothing : Obligations.SplittingABufferChangesNothing := by
  intro s i d1 d2 ⟨hk, h⟩ hi h1 h2 hlen
  have hm := Instr.multiBlock_of_chained hi
  have hwhole : (d1 ++ d2).length % s.bs = 0 := by
    rw [List.length_append]
    exact Nat.mod_eq_zero_of_dvd ((Nat.dvd_of_mod_eq_zero h1).add (Nat.dvd_of_mod_eq_zero h2))
  have hfirst := step_bufferCommand s [.command (bufferCommand i d2)] hm hk h1 ((Nat.le_add_right _ _).trans_lt hlen)
  have hsecond := step_bufferCommand (s.answered (bufferCommand i d1) (s.runBuffer i d1 s.chain)) [] hm hk h2
    ((Nat.le_add_left _ _).trans_lt hlen)
  rw [← List.length_append] at hlen ⊢
  have honce := step_bufferCommand s [] hm hk hwhole hlen
  rw [runBuffer_append h i h1 h2] at honce
  refine ⟨_, _, _, _, runBuffer_length h i d1 h.chain_length h1,
    (run_succ_of_step hfirst 1).trans (run_succ_of_step hsecond 0), List.append_assoc _ _ _, honce, rfl, rfl⟩

/-- Settles O49: no command of the session but `RESETCHAIN` matters: it puts back the chain of the fresh session, and
the encryption reads nothing else that the others changed. -/
theorem resetChainIsolatesStreams : Obligations.ResetChainIsolatesStreams := by
  intro s t v between m a hk hchain hstay hrun hstep
  have hsame : s.SameSession t :=
    .trans ⟨_, _, _, _, rfl⟩ (run_staysInSession between { s with inputs := between } t hstay rfl hrun)
  have hreset := step_callResetChain t [.command (callEncrypt a m)] (hsame.keyInit.trans hk)
  have halike := perform_sameLastAnswer (hsame.readsAs_of_reset hchain callResetChain (callEncrypt a m))
  obtain ⟨u, hu, hlast, hu_chain⟩ := halike.exists_next ((step_of_command rfl).symm.trans hstep)
  exact ⟨u, (run_succ_of_step hreset 1).trans (run_succ_of_step ((step_of_command rfl).trans hu) 0), hlast, hu_chain⟩

end Sys2Proof.Proofs
end

section
/-!
PROOFS. The accessors family (spec 45_accessors.md): one answer of the shared register read (R263), and what the three
registers hold in a session (R22 to R24, R262).
-/

namespace Sys2Proof.Machine

/-- What the three accessors share: both checks pass, and the register is answered zero-extended (R263). -/
theorem readRegister_of_keyed {s : State} (hk : s.keyInit = true) (hdin : s.cur.din = []) (register : BitVec 8) :
    readRegister register s = .next (s.respond (okResponse (register.setWidth 32) [])) := by
  rw [readRegister, withKey_of_keyed hk, withDin_of_length (by rw [hdin]; rfl), succeed]

/-- The round count of a session from the larger of the two sizes (R262). -/
theorem State.InSession.rounds_eq {s : State} (h : s.InSession) :
    s.rounds.toNat = max s.keylen.toNat s.blksize.toNat / 4 + 6 := by
  obtain ⟨-, -, hrounds, -⟩ := h
  omega

end Sys2Proof.Machine

namespace Sys2Proof.Proofs

open Sys2Proof.Machine

/-- Settles O51: each accessor is the shared read of its register; the values are those of the session. -/
theorem accessorsAnswerTheSessionRegisters : Obligations.AccessorsAnswerTheSessionRegisters := by
  refine fun s => ⟨fun ⟨hk, h⟩ hdin => ?_, fun hk i hi => ?_⟩
  · have hread := readRegister_of_keyed hk hdin
    have hzext (register : BitVec 8) : (register.setWidth 32).toNat = register.toNat :=
      BitVec.toNat_setWidth_of_le (by decide)
    have hrounds := h.rounds_eq
    obtain ⟨hkeylen, hblksize, -⟩ := h
    simp only [hzext]
    exact ⟨hread s.keylen, hread s.blksize, hread s.rounds, hkeylen, hblksize, hrounds⟩
  · have haccessor : i.isMakeKey = false := by
      rcases hi with rfl | rfl | rfl <;> rfl
    exact exec_of_unkeyed hk haccessor

end Sys2Proof.Proofs
end

section
/-!
PROOFS. The exceptions family (spec 60_exceptions.md): which error a command meets (R275, R278), what an error leaves
(R279), and that instances share nothing (R285).
-/

namespace Sys2Proof.Machine

/-! ## Checks that all pass -/

/-- With both sizes supported `MAKEKEY` meets no error (R159). -/
theorem State.errorOf_makeKey_of_sizeOk {kl bs : Nat} (hkl : SizeOk kl) (hbs : SizeOk bs) (s : State) (z : Bool) :
    s.errorOf (.makeKey z kl bs) = none := by
  rw [State.errorOf, if_neg (not_not.2 hkl), if_neg (not_not.2 hbs)]

/-- On a keyed engine, with whole blocks where the command is multi-block, a command of the session meets no error
(R278 group 3). -/
theorem State.errorOf_of_sessionPassed {i : Instr} {s : State} (hi : i.isMakeKey = false) (hk : s.keyInit = true)
    (ha : i.multiBlock = true → s.n % s.bs = 0) : s.errorOf i = none := by
  rw [State.errorOf_of_session hi, State.sessionError, if_neg (by simp [hk]), if_neg fun h => h.2 (ha h.1)]

/-- A command that meets no error and is answered is answered with `STATUS = 0` (R92, R278). -/
theorem exec_status_of_noError {i : Instr} {s t : State} (hnone : s.errorOf i = none) (h : exec i s = .next t) :
    ∃ r, t.responses = s.responses ++ [r] ∧ r.status = 0 := by
  obtain ⟨v, d, u, hexec⟩ := exec_of_noError hnone
  obtain rfl := succeed_eq_next_iff.1 (withDin_eq_next (hexec ▸ h)).2
  obtain ⟨-, r, hresp, -⟩ := exec_response h
  obtain ⟨-, rfl⟩ := List.append_singleton_inj.1 hresp
  exact ⟨_, hresp, rfl⟩

/-- A `MAKEKEY` with an unsupported size raises an error (R159). -/
theorem execMakeKey_of_unsupported {kl bs : Nat} (h : ¬ (SizeOk kl ∧ SizeOk bs)) (z : Bool) (s : State) :
    ∃ e, execMakeKey z kl bs s = raise e s := by
  by_cases hkl : SizeOk kl
  · exact ⟨_, execMakeKey_of_badBlockSize hkl (fun hbs => h ⟨hkl, hbs⟩) z s⟩
  · exact ⟨_, execMakeKey_of_badKeyLength hkl z bs s⟩

/-! ## The error entry -/

/-- A transaction that is answered either raises an error, which changes no register (R279), or is answered with
`STATUS = 0`. -/
theorem perform_raises_or_succeeds {s t : State} (h : s.perform = .next t) :
    (∃ e, t = s.respond (errorResponse e)) ∨ ∃ r, t.responses = s.responses ++ [r] ∧ r.status = 0 := by
  rcases perform_eq_next h with ⟨i, -, h⟩ | ⟨why, -, h⟩
  · rcases exec_eq_next h with h | ⟨z, kl, bs, -, -, -, -, rfl⟩ | ⟨v, d, -, rfl⟩ | ⟨f, d, -, -, rfl⟩ | ⟨-, -, rfl⟩
    · exact .inl h
    all_goals exact .inr ⟨_, rfl, rfl⟩
  · exact .inl ⟨_, h⟩

/-! ## Another port -/

/-- A result that is alike for one relation is alike for every weaker one. -/
theorem Alike.mono {R R' : State → State → Prop} {r r' : Result} (h : Alike R r r')
    (hweaker : ∀ t t', R t t' → R' t t') : Alike R' r r' := by
  cases h with
  | next h => exact .next (hweaker _ _ h)
  | refused why => exact .refused why

/-- Both states come from one transaction, the first from `s` and the second from `s` with the actions `later` waiting
and the responses `past` returned: they have one new response and are otherwise the same. -/
def State.AnsweredAlike (s : State) (later : List HostAction) (past : List Response) (t t' : State) : Prop :=
  t.inputs = s.inputs ∧ ∃ r, t.responses = s.responses ++ [r] ∧
    t' = { t with inputs := later, responses := past ++ [r] }

/-- Performing a transaction reads neither the actions that wait nor the earlier responses (R65). -/
theorem perform_setPort_alike (s : State) (later : List HostAction) (past : List Response) :
    Alike (s.AnsweredAlike later past) s.perform { s with inputs := later, responses := past }.perform := by
  refine perform_alike rfl (fun r => ⟨rfl, r, rfl, rfl⟩) fun i => ?_
  apply exec_alike
  case hrespond => exact fun r => ⟨rfl, r, rfl, rfl⟩
  case h => exact ⟨rfl, rfl, rfl, rfl, rfl, rfl, rfl, rfl⟩
  case hchain => exact fun c r => ⟨rfl, r, rfl, rfl⟩
  case hestablish => exact fun kl bs key ci r => ⟨rfl, r, rfl, rfl⟩

/-- The two states differ in the latch, and in the responses only by those before: `before` and `past`. -/
def State.SameSince (before past : List Response) (t t' : State) : Prop :=
  ∃ latch new, t.responses = before ++ new ∧ t' = { t with cur := latch, responses := past ++ new }

/-- No step reads the latch or an earlier response: both go on as before, with the same new responses (R285). -/
theorem step_sameSince_alike {before past : List Response} (s s' : State) (h : State.SameSince before past s s') :
    Alike (State.SameSince before past) (step s) (step s') := by
  obtain ⟨latch, new, hresp, rfl⟩ := h
  apply step_alike
  case hin => rfl
  case hidle => exact ⟨latch, new, hresp, rfl⟩
  case hreset => exact fun rest => ⟨_, new, hresp, rfl⟩
  case hperform =>
    intro tr rest
    refine (perform_setPort_alike (s.accept tr rest) rest (past ++ new)).mono ?_
    rintro t _ ⟨rfl, r, hr, rfl⟩
    refine ⟨t.cur, new ++ [r], ?_, ?_⟩
    · rw [hr, State.accept_responses, hresp, List.append_assoc]
    · rw [List.append_assoc]

/-! ## A row of instances -/

/-- A step of instance `k` writes what that instance becomes, and writes nothing where there is no instance. -/
theorem stepInstance_eq_next_iff {k : Nat} {all one : List State} :
    stepInstance k all = .next one ↔ ∃ t, (∀ s, all[k]? = some s → step s = .next t) ∧ one = all.set k t := by
  cases hk : all[k]? with
  | none =>
    have hset (t : State) : all.set k t = all := List.set_eq_of_length_le (List.getElem?_eq_none_iff.1 hk)
    have hstate : Nonempty State := ⟨.reset⟩
    simp [stepInstance, hk, hset, eq_comm]
  | some s =>
    cases hs : step s with
    | next t => simp [stepInstance, hk, hs, eq_comm]
    | fault f => exact absurd hs (not_fault _ f)
    | refused why => simp [stepInstance, hk, hs]

/-- Steps of two instances commute (R285). -/
theorem stepInstance_comm {all one both : List State} {j k : Nat} (hjk : j ≠ k) (hj : stepInstance j all = .next one)
    (hk : stepInstance k one = .next both) :
    ∃ other, stepInstance k all = .next other ∧ stepInstance j other = .next both := by
  obtain ⟨t, ht, rfl⟩ := stepInstance_eq_next_iff.1 hj
  obtain ⟨u, hu, rfl⟩ := stepInstance_eq_next_iff.1 hk
  rw [List.getElem?_set_ne hjk] at hu
  refine ⟨all.set k u, stepInstance_eq_next_iff.2 ⟨u, hu, rfl⟩, stepInstance_eq_next_iff.2 ⟨t, ?_, ?_⟩⟩
  · rwa [List.getElem?_set_ne hjk.symm]
  · exact List.set_comm t u hjk

/-- A step of one instance leaves the others (R285). -/
theorem stepInstance_getElem?_ne {all one : List State} {j k : Nat} (hjk : j ≠ k)
    (h : stepInstance j all = .next one) : one[k]? = all[k]? := by
  obtain ⟨t, -, rfl⟩ := stepInstance_eq_next_iff.1 h
  exact List.getElem?_set_ne hjk

end Sys2Proof.Machine

namespace Sys2Proof.Proofs

open Sys2Proof.Machine

/-- Settles O12: a command of the session stops at the first check, a failed `MAKEKEY` at one of its two. -/
theorem unkeyedCommandsRaiseKeyNotInitialized : Obligations.UnkeyedCommandsRaiseKeyNotInitialized := by
  refine fun s i hk => ⟨exec_of_unkeyed hk, ?_⟩
  rintro z kl bs rfl hsizes
  obtain ⟨e, hraise⟩ := execMakeKey_of_unsupported hsizes z s
  exact ⟨_, hraise, hk⟩

/-- Settles O11: once the port has taken the transaction, each clause is the check of that name. -/
theorem errorsFollowTheirPriority : Obligations.ErrorsFollowTheirPriority := by
  intro s tr rest hin
  refine ⟨fun why hword => ?_, fun z kl bs hword => ?_, fun i hword hi => ?_⟩
  · rw [step_of_command hin]
    exact perform_of_illegal hword
  · rw [stepRunsTheDecodedCommand s tr rest _ hin hword]
    exact ⟨fun hkl => execMakeKey_of_badKeyLength hkl z bs _, fun hkl hbs => execMakeKey_of_badBlockSize hkl hbs z _,
      fun hkl hbs _ => exec_status_of_noError (State.errorOf_makeKey_of_sizeOk hkl hbs _ z)⟩
  · rw [stepRunsTheDecodedCommand s tr rest i hin hword]
    exact ⟨fun hk => exec_of_unkeyed hk hi, fun hk hm ha => exec_of_misaligned hm hk ha,
      fun hk ha _ => exec_status_of_noError (State.errorOf_of_sessionPassed hi hk ha)⟩

/-- Settles O13: a response that is no success is that of the error entry. -/
theorem failedCommandChangesNoRegister : Obligations.FailedCommandChangesNoRegister := by
  intro s t tr rest r hin h hresp hstatus
  rcases perform_raises_or_succeeds (step_of_command hin ▸ h) with ⟨e, rfl⟩ | ⟨r', hresp', hzero⟩
  · obtain ⟨-, rfl⟩ := List.append_singleton_inj.1 hresp
    exact ⟨rfl, rfl, rfl⟩
  · obtain ⟨-, rfl⟩ := List.append_singleton_inj.1 (hresp.symm.trans hresp')
    exact absurd hzero hstatus

/-- Settles O60: the runs differ, from the start on, only in the latch and in the responses before; one command reads
of its port only the transaction; a step in a row writes one place. -/
theorem instancesDoNotInterfere : Obligations.InstancesDoNotInterfere := by
  refine ⟨fun s t k stale past hrun => ?_, fun s tr stale rest later past hin => ?_, fun all one both j k hjk hj =>
    ⟨stepInstance_getElem?_ne hjk hj, stepInstance_comm hjk hj⟩⟩
  · have hstart : State.SameSince s.responses past s { s with cur := stale, responses := past } :=
      ⟨stale, [], by simp, by simp⟩
    obtain ⟨_, hrun', latch, new, hresp, rfl⟩ := (run_alike step_sameSince_alike k _ _ hstart).exists_next hrun
    exact ⟨latch, new, hresp, hrun'⟩
  · have halike := perform_setPort_alike (s.accept tr rest) later past
    rw [← step_of_command hin] at halike
    refine ⟨fun t h => ?_, fun why h => halike.refused_of h⟩
    obtain ⟨_, hstep, -, r, hresp, rfl⟩ := halike.exists_next h
    exact ⟨r, hresp, hstep⟩

end Sys2Proof.Proofs
end

section
/-!
PROOFS. The reset and hazards family (spec 70_reset_and_hazards.md): a chained decryption from the wrong value in
`CHAIN` (R313).
-/

namespace Sys2Proof.Machine

/-! ## Sums of byte sequences (R10) -/

theorem bytesXor_assoc (a b c : List Byte) : bytesXor (bytesXor a b) c = bytesXor a (bytesXor b c) := by
  simp only [bytesXor, List.zipWith_zipWith_left, List.zipWith_zipWith_right, BitVec.xor_assoc]

/-- What stands in both sums drops out. -/
theorem bytesXor_cancel_middle {a b : List Byte} (h : a.length = b.length) (c : List Byte) :
    bytesXor (bytesXor a b) (bytesXor b c) = bytesXor a c := by
  rw [← bytesXor_assoc, bytesXor_cancel_right h]

/-- One block of `DECRYPT.CBC` from two chains: the outputs differ by the sum of the chains (R226). -/
theorem State.InSession.blockStep_decryptCbc {s : State} (h : s.InSession) {b c : List Byte} (hb : b.length = s.bs)
    (hc : c.length = s.bs) (wrong : List Byte) :
    (s.blockStep .decryptCbc b wrong).1 = bytesXor (s.blockStep .decryptCbc b c).1 (bytesXor c wrong) :=
  (bytesXor_cancel_middle ((h.invCipher_length hb).trans hc.symm) wrong).symm

/-! ## A step that leaves in `CHAIN` the block it consumed (R226, R227) -/

/-- A run over one block is the step. -/
theorem runBuffer_block {s : State} (h : s.InSession) (i : Instr) {b : List Byte} (hb : b.length = s.bs)
    (c : List Byte) : s.runBuffer i b c = s.blockStep i b c := by
  have hblocks : blocks s.bs b = [b] := by
    simpa using blocks_flatten (bl := [b]) h.bs_pos (by simpa using hb)
  simp [State.runBuffer, hblocks]

/-- The chain a run begins from enters its first block alone: the second begins from the first input block. -/
theorem runBuffer_of_consumed {s : State} (h : s.InSession) {i : Instr} (hfb : ∀ b c, (s.blockStep i b c).2 = b)
    {buffer : List Byte} (ha : buffer.length % s.bs = 0) (hfirst : s.bs ≤ buffer.length) (c : List Byte) :
    s.runBuffer i buffer c =
      ((s.blockStep i (buffer.take s.bs) c).1 ++ (s.runBuffer i (buffer.drop s.bs) (buffer.take s.bs)).1,
        (s.runBuffer i (buffer.drop s.bs) (buffer.take s.bs)).2) := by
  have hhead : (buffer.take s.bs).length = s.bs := List.length_take_of_le hfirst
  have htail : (buffer.drop s.bs).length % s.bs = 0 := by rw [List.length_drop, ← Nat.mod_eq_sub_mod hfirst, ha]
  conv_lhs => rw [← List.take_append_drop s.bs buffer]
  rw [runBuffer_append h i (by rw [hhead, Nat.mod_self]) htail, runBuffer_block h i hhead, hfb]

section Consumed

variable {s : State} (hs : s.Ready) (ha : s.n % s.bs = 0) (hn : 0 < s.n) (hdin : s.cur.din.length = s.n)

include ha hn hdin in
/-- A buffer of whole blocks that is not empty has a first block. -/
theorem bs_le_din_length : s.bs ≤ s.cur.din.length := hdin ▸ Nat.le_of_dvd hn (Nat.dvd_of_mod_eq_zero ha)

variable {i : Instr} (hi : i.multiBlock = true) (hfb : ∀ b c, (s.blockStep i b c).2 = b)
include hs ha hn hdin hi hfb

/-- The command in a session: its output by the first block and the others, and the last input block in `CHAIN`. -/
theorem exec_of_consumed : exec i s = .next { s with
    chain := memRead s.cur.din (s.n - s.bs) s.bs
    responses := s.responses ++ [⟨0, 0, (s.blockStep i (s.cur.din.take s.bs) s.chain).1 ++
      (s.runBuffer i (s.cur.din.drop s.bs) (s.cur.din.take s.bs)).1⟩] } := by
  obtain ⟨out, hexec, -⟩ := exec_of_feedback (fb := .consumed) hi hfb hs ha hdin
  obtain ⟨hk, h⟩ := hs
  have hstate := Host.Outcome.next.inj (hexec.symm.trans (exec_of_passed hi hk ha hdin))
  obtain ⟨-, hresp⟩ := List.append_singleton_inj.1 (congrArg State.responses hstate)
  obtain rfl : out = (s.runBuffer i s.cur.din s.chain).1 := congrArg Response.dout hresp
  rw [hexec, if_neg hn.ne', runBuffer_of_consumed h hfb (hdin ▸ ha) (bs_le_din_length ha hn hdin)]
  rfl

/-- The command from `CHAIN` and from a wrong value: only the first output blocks can differ. -/
theorem exec_of_wrongChain {wrong : List Byte} (hwrong : wrong.length = s.bs) :
    ∃ out out' last,
      exec i s = .next { s with chain := last, responses := s.responses ++ [⟨0, 0, out⟩] } ∧
      exec i { s with chain := wrong } =
        .next { s with chain := last, responses := s.responses ++ [⟨0, 0, out'⟩] } ∧
      out'.drop s.bs = out.drop s.bs ∧ last = memRead s.cur.din (s.n - s.bs) s.bs ∧
      out.take s.bs = (s.blockStep i (s.cur.din.take s.bs) s.chain).1 ∧
      out'.take s.bs = (s.blockStep i (s.cur.din.take s.bs) wrong).1 := by
  have hexec := exec_of_consumed hs ha hn hdin hi hfb
  obtain ⟨hk, h⟩ := hs
  have hinv : State.Inv { s with chain := wrong } := State.Inv.setChain (fun _ => h) fun _ => hwrong
  have hexec' := exec_of_consumed (s := { s with chain := wrong }) ⟨hk, hinv hk⟩ ha hn hdin hi hfb
  have hblock := List.length_take_of_le (bs_le_din_length ha hn hdin)
  have hlen := (h.blockStep_length i hblock h.chain_length).1
  have hlen' := (h.blockStep_length i hblock hwrong).1
  exact ⟨_, _, _, hexec, hexec', (List.drop_left' hlen').trans (List.drop_left' hlen).symm, rfl,
    List.take_left' hlen, List.take_left' hlen'⟩

end Consumed

end Sys2Proof.Machine

namespace Sys2Proof.Proofs

open Sys2Proof.Machine

/-- Settles O50: both commands leave in `CHAIN` the block they consumed, so the value they begin from enters the first
output block alone; in CBC the two first blocks differ by the sum of the two values. -/
theorem wrongChainSpoilsOnlyTheFirstBlock : Obligations.WrongChainSpoilsOnlyTheFirstBlock := by
  rintro s wrong _ _ hs rfl rfl ha hn hdin hwrong
  refine ⟨?cbc, ?cfb⟩
  case cbc =>
    obtain ⟨out, out', last, hexec, hexec', hrest, hlast, hfirst, hfirst'⟩ :=
      exec_of_wrongChain (i := .decryptCbc) hs ha hn hdin rfl (fun _ _ => rfl) hwrong
    have hblock := List.length_take_of_le (bs_le_din_length ha hn hdin)
    obtain ⟨-, h⟩ := hs
    have hsum := h.blockStep_decryptCbc hblock h.chain_length wrong
    rw [← hfirst, ← hfirst'] at hsum
    exact ⟨out, out', last, hexec, hexec', hrest, hlast, hsum⟩
  case cfb =>
    obtain ⟨out, out', last, hexec, hexec', hrest, hlast, -, hfirst'⟩ :=
      exec_of_wrongChain (i := .decryptCfb) hs ha hn hdin rfl (fun _ _ => rfl) hwrong
    exact ⟨out, out', last, hexec, hexec', hrest, hlast, hfirst'⟩

end Sys2Proof.Proofs
end
